-- ==== Sys2Proof/Word.lean ====
section
/-! DEFINITION. The word and byte types, and the three values of the condition-flag register. -/

namespace Sys2Proof

/-- A 16-bit word: the unit of memory, of every register and of every address (R7, R13). -/
abbrev Word := BitVec 16

/-- One byte of the input or output stream, or of an image file (R9, R54). -/
abbrev Byte := BitVec 8

/-- The condition flag: exactly one of three mutually exclusive values (R25). -/
inductive Cond where
  | neg
  | zero
  | pos
deriving DecidableEq, Repr

end Sys2Proof
end

