-- ==== Sys2Proof/Syntax.lean ====
section
/-! DEFINITION. The instruction set as data: one constructor per row of spec/opcode_table.json. -/

namespace Sys2Proof

/-- A general register R0 to R7 (R19). -/
abbrev Reg := Fin 8

/-- One constructor per row of spec/opcode_table.json.

The fields stand in the order of the row's bit pattern, high bits first (R61). Offsets and immediates are
the raw fields; `Machine/Operands.lean` widens them (R63). A field named `ign…` holds bits that the decoder
ignores (R64): they change nothing an instruction computes, and are kept because a fault records the whole
instruction word (R106). `ret`, `getc`, `out`, `puts`, `inChar`, `putsp` and `halt` are the table's own rows
for one word of JMP and for six vectors of TRAP (R67, R71). -/
inductive Instr where
  /-- BR (R79): the condition bits n, z, p and PCoffset9. -/
  | br (nzp : BitVec 3) (off : BitVec 9)
  /-- ADD, register form (R73). -/
  | addReg (dr sr1 : Reg) (ign : BitVec 2) (sr2 : Reg)
  /-- ADD, immediate form (R74). -/
  | addImm (dr sr1 : Reg) (imm : BitVec 5)
  /-- LD (R85). -/
  | ld (dr : Reg) (off : BitVec 9)
  /-- ST (R89). -/
  | st (sr : Reg) (off : BitVec 9)
  /-- JSR (R81). -/
  | jsr (off : BitVec 11)
  /-- JSRR (R82). -/
  | jsrr (ignHi : BitVec 2) (base : Reg) (ignLo : BitVec 6)
  /-- AND, register form (R75). -/
  | andReg (dr sr1 : Reg) (ign : BitVec 2) (sr2 : Reg)
  /-- AND, immediate form (R76). -/
  | andImm (dr sr1 : Reg) (imm : BitVec 5)
  /-- LDR (R87). -/
  | ldr (dr base : Reg) (off : BitVec 6)
  /-- STR (R91). -/
  | str (sr base : Reg) (off : BitVec 6)
  /-- Reserved opcode 1000 (R102). -/
  | reserved1000 (ign : BitVec 12)
  /-- NOT (R77). -/
  | notReg (dr sr : Reg) (ign : BitVec 6)
  /-- LDI (R86). -/
  | ldi (dr : Reg) (off : BitVec 9)
  /-- STI (R90). -/
  | sti (sr : Reg) (off : BitVec 9)
  /-- JMP (R80), any word but RET's. -/
  | jmp (ignHi : BitVec 3) (base : Reg) (ignLo : BitVec 6)
  /-- Reserved opcode 1101 (R103). -/
  | res (ign : BitVec 12)
  /-- LEA (R88). -/
  | lea (dr : Reg) (off : BitVec 9)
  /-- TRAP (R92); decoded for the vectors that name no routine (R99). -/
  | trap (ign : BitVec 4) (vect : BitVec 8)
  /-- RET, the word 0xC1C0 of JMP R7 (R80). -/
  | ret
  /-- TRAP x20, GETC (R93). -/
  | getc (ign : BitVec 4)
  /-- TRAP x21, OUT (R94). -/
  | out (ign : BitVec 4)
  /-- TRAP x22, PUTS (R95). -/
  | puts (ign : BitVec 4)
  /-- TRAP x23, IN (R96). -/
  | inChar (ign : BitVec 4)
  /-- TRAP x24, PUTSP (R97). -/
  | putsp (ign : BitVec 4)
  /-- TRAP x25, HALT (R98). -/
  | halt (ign : BitVec 4)
deriving DecidableEq, Repr

end Sys2Proof
end

