-- ==== Sys2Proof/WellFormed.lean ====
section
/-! DEFINITION. Which terms of `Instr` are the reading of some instruction word.

Field widths are carried by the types. Two checks remain, because the table gives some words of JMP and TRAP
a row of their own: the word of RET is read as `ret` and the six named vectors as the named traps. -/

namespace Sys2Proof

/-- The six vectors that name a routine (R67). -/
def namedVector (v : BitVec 8) : Bool := 0x20 ≤ v.toNat && v.toNat ≤ 0x25

/-- An instruction is well-formed when no more special row of the table has its word: `jmp` is not the word
0xC1C0 (R71), and `trap` has a vector outside 0x20 to 0x25 (R67). -/
def Instr.wf : Instr → Bool
  | .jmp ignHi base ignLo => !(ignHi == 0 && base == 7 && ignLo == 0)
  | .trap _ vect => !namedVector vect
  | .br .. | .addReg .. | .addImm .. | .ld .. | .st .. | .jsr .. | .jsrr .. | .andReg .. | .andImm ..
  | .ldr .. | .str .. | .reserved1000 .. | .notReg .. | .ldi .. | .sti .. | .res .. | .lea .. | .ret
  | .getc .. | .out .. | .puts .. | .inChar .. | .putsp .. | .halt .. => true

end Sys2Proof
end

