-- ==== Sys2Proof/Decode.lean ====
section
/-! DEFINITION. The decoder (R59 to R67), total on every 16-bit word, and the encoder written from the same
formats. -/

namespace Sys2Proof

/-- A 3-bit field names R0 to R7 directly (R62). -/
def Reg.ofBits (b : BitVec 3) : Reg := b.toFin

/-- The 3-bit field that names a register (R62). -/
def Reg.toBits (r : Reg) : BitVec 3 := BitVec.ofFin r

/-- The field `w[lo+width-1 : lo]` (R12). -/
def field (w : Word) (lo width : Nat) : BitVec width := w.extractLsb' lo width

/-- The opcode field (R60). -/
def opcodeOf (w : Word) : BitVec 4 := field w 12 4

/-- A TRAP word: its vector selects the row of the table (R67); bits [11:8] are ignored (R64). -/
def decodeTrap (w : Word) : Instr :=
  let ign := field w 8 4
  match field w 0 8 with
  | 0x20#8 => .getc ign
  | 0x21#8 => .out ign
  | 0x22#8 => .puts ign
  | 0x23#8 => .inChar ign
  | 0x24#8 => .putsp ign
  | 0x25#8 => .halt ign
  | vect => .trap ign vect

/-- A JMP word: the one word 0xC1C0 is RET (R71, R80). -/
def decodeJmp (w : Word) : Instr :=
  if w = 0xC1C0#16 then .ret else .jmp (field w 9 3) (Reg.ofBits (field w 6 3)) (field w 0 6)

/-- The decoder: a total, pure function of the instruction word with no failure mode (R60). The fourteen
defined opcodes and the two reserved ones each have an arm; bit 5 selects ADD's and AND's immediate form and
bit 11 JSR's offset form (R62). -/
def decode (w : Word) : Instr :=
  let r11 := Reg.ofBits (field w 9 3)
  let r8 := Reg.ofBits (field w 6 3)
  match opcodeOf w with
  | 0x0#4 => .br (field w 9 3) (field w 0 9)
  | 0x1#4 =>
    if field w 5 1 = 1#1 then .addImm r11 r8 (field w 0 5)
    else .addReg r11 r8 (field w 3 2) (Reg.ofBits (field w 0 3))
  | 0x2#4 => .ld r11 (field w 0 9)
  | 0x3#4 => .st r11 (field w 0 9)
  | 0x4#4 => if field w 11 1 = 1#1 then .jsr (field w 0 11) else .jsrr (field w 9 2) r8 (field w 0 6)
  | 0x5#4 =>
    if field w 5 1 = 1#1 then .andImm r11 r8 (field w 0 5)
    else .andReg r11 r8 (field w 3 2) (Reg.ofBits (field w 0 3))
  | 0x6#4 => .ldr r11 r8 (field w 0 6)
  | 0x7#4 => .str r11 r8 (field w 0 6)
  | 0x8#4 => .reserved1000 (field w 0 12)
  | 0x9#4 => .notReg r11 r8 (field w 0 6)
  | 0xA#4 => .ldi r11 (field w 0 9)
  | 0xB#4 => .sti r11 (field w 0 9)
  | 0xC#4 => decodeJmp w
  | 0xD#4 => .res (field w 0 12)
  | 0xE#4 => .lea r11 (field w 0 9)
  | _ => decodeTrap w -- 0xF#4, the sixteenth value

/-- The word that holds a value in its bits `[lo+n-1 : lo]` and zeros elsewhere (R12). -/
def put {n : Nat} (v : BitVec n) (lo : Nat) : Word := v.setWidth 16 <<< lo

/-- The word of an instruction: each field of its format at its place (R61, R62). -/
def encode : Instr → Word
  | .br nzp off => put 0x0#4 12 ||| put nzp 9 ||| put off 0
  | .addReg dr sr1 ign sr2 => put 0x1#4 12 ||| put dr.toBits 9 ||| put sr1.toBits 6 ||| put ign 3 ||| put sr2.toBits 0
  | .addImm dr sr1 imm => put 0x1#4 12 ||| put dr.toBits 9 ||| put sr1.toBits 6 ||| put 1#1 5 ||| put imm 0
  | .ld dr off => put 0x2#4 12 ||| put dr.toBits 9 ||| put off 0
  | .st sr off => put 0x3#4 12 ||| put sr.toBits 9 ||| put off 0
  | .jsr off => put 0x4#4 12 ||| put 1#1 11 ||| put off 0
  | .jsrr ignHi base ignLo => put 0x4#4 12 ||| put ignHi 9 ||| put base.toBits 6 ||| put ignLo 0
  | .andReg dr sr1 ign sr2 => put 0x5#4 12 ||| put dr.toBits 9 ||| put sr1.toBits 6 ||| put ign 3 ||| put sr2.toBits 0
  | .andImm dr sr1 imm => put 0x5#4 12 ||| put dr.toBits 9 ||| put sr1.toBits 6 ||| put 1#1 5 ||| put imm 0
  | .ldr dr base off => put 0x6#4 12 ||| put dr.toBits 9 ||| put base.toBits 6 ||| put off 0
  | .str sr base off => put 0x7#4 12 ||| put sr.toBits 9 ||| put base.toBits 6 ||| put off 0
  | .reserved1000 ign => put 0x8#4 12 ||| put ign 0
  | .notReg dr sr ign => put 0x9#4 12 ||| put dr.toBits 9 ||| put sr.toBits 6 ||| put ign 0
  | .ldi dr off => put 0xA#4 12 ||| put dr.toBits 9 ||| put off 0
  | .sti sr off => put 0xB#4 12 ||| put sr.toBits 9 ||| put off 0
  | .jmp ignHi base ignLo => put 0xC#4 12 ||| put ignHi 9 ||| put base.toBits 6 ||| put ignLo 0
  | .res ign => put 0xD#4 12 ||| put ign 0
  | .lea dr off => put 0xE#4 12 ||| put dr.toBits 9 ||| put off 0
  | .trap ign vect => put 0xF#4 12 ||| put ign 8 ||| put vect 0
  | .ret => 0xC1C0#16
  | .getc ign => put 0xF#4 12 ||| put ign 8 ||| put 0x20#8 0
  | .out ign => put 0xF#4 12 ||| put ign 8 ||| put 0x21#8 0
  | .puts ign => put 0xF#4 12 ||| put ign 8 ||| put 0x22#8 0
  | .inChar ign => put 0xF#4 12 ||| put ign 8 ||| put 0x23#8 0
  | .putsp ign => put 0xF#4 12 ||| put ign 8 ||| put 0x24#8 0
  | .halt ign => put 0xF#4 12 ||| put ign 8 ||| put 0x25#8 0

/-- The instruction the decoder reads from the table's numbering of a row's bits: one 16-bit word (R59), the
bits above `nbits` zero. A row wider than one word is refused: no instruction is. -/
def decodeTableWord (nbits w : Nat) : Option Instr :=
  if nbits ≤ 16 then some (decode (BitVec.ofNat 16 (w % 2 ^ nbits))) else none

end Sys2Proof
end

