-- ==== Sys2Proof/Machine/Bits.lean ====
section
/-! DEFINITION. Sign and zero extension (R14, R15) and the byte halves of a word (R42). -/

namespace Sys2Proof.Machine

/-- `sext_N`: widen an N-bit field to 16 bits with its sign (R14). -/
def sext {n : Nat} (v : BitVec n) : Word := v.signExtend 16

/-- `zext_8`: widen a byte to 16 bits with zeros (R15). -/
def zextByte (b : Byte) : Word := b.setWidth 16

/-- Bits [7:0] of a word, the half that holds a character (R42). -/
def lowByte (w : Word) : Byte := w.extractLsb' 0 8

/-- Bits [15:8] of a word, PUTSP's second character (R42, R97). -/
def highByte (w : Word) : Byte := w.extractLsb' 8 8

/-- A word from two bytes of an image file, big-endian (R54). -/
def wordOfBytes (hi lo : Byte) : Word := hi ++ lo

end Sys2Proof.Machine
end

