-- ==== Sys2Proof/Machine/Flags.lean ====
section
/-! DEFINITION. The one flag computation of the machine (R72), the one-hot encoding of COND (R25) and the
test BR makes of it (R79). -/

namespace Sys2Proof.Machine

/-- The flag of a value just written to a register: N if bit 15 is set, else Z if it is zero, else P (R72). -/
def condOf (v : Word) : Cond :=
  if v.getLsbD 15 then .neg else if v = 0x0000#16 then .zero else .pos

/-- COND as the one-hot value whose bits are n, z, p (R25). -/
def condBits : Cond → BitVec 3
  | .neg => 0b100#3
  | .zero => 0b010#3
  | .pos => 0b001#3

/-- BR's condition: a condition bit of the instruction meets the current flag (R79). -/
def branchTaken (nzp : BitVec 3) (c : Cond) : Bool := (nzp &&& condBits c) != 0#3

end Sys2Proof.Machine
end

