-- ==== Sys2Proof/Config.lean ====
section
/-! DEFINITION. The named parameters the spec leaves open (R7, decisions D4, D7, D12, D13, D14, D17, D26), and
the free values: constants with no body that stand for what the host or the implementation decides. -/

namespace Sys2Proof

/-- When JSRR reads its base register (R82, decision D26). -/
inductive JsrrBaseRead where
  /-- after the link write: the source's order, and the spec's default -/
  | afterLink
  /-- before the link write: the textbook's order -/
  | beforeLink
deriving DecidableEq, Repr

/-- The parameters of one machine. They are plain data, no step changes them, and a statement about every
state holds for every value of them. -/
structure Params where
  /-- `KBSR_ADDR` (R7, D4) -/
  kbsrAddr : Word
  /-- `KBDR_ADDR` (R7, D4) -/
  kbdrAddr : Word
  /-- `RESET_COND` (R26, D7) -/
  resetCond : Cond
  /-- `IN_PROMPT` (R96, D17) -/
  inPrompt : List Byte
  /-- `HALT_MESSAGE` (R98, D17) -/
  haltMessage : List Byte
  /-- `JSRR_BASE_READ` (R82, D26) -/
  jsrrBaseRead : JsrrBaseRead
  /-- `LINK_SETS_CC` (D12): whether the link write of JSR and JSRR sets COND -/
  linkSetsCc : Bool
  /-- `TRAPIN_SETS_CC` (D13): whether GETC and IN set COND from R0 -/
  trapInSetsCc : Bool
  /-- `TRAP_LINKS_R7` (D14): whether TRAP writes R7 -/
  trapLinksR7 : Bool
deriving DecidableEq, Repr

/-- `PC_RESET` (R7, R24). -/
def pcReset : Word := 0x3000#16

/-- The keyboard addresses are two different addresses, neither of them `PC_RESET` (R8). -/
abbrev Params.wf (p : Params) : Prop :=
  p.kbsrAddr ≠ p.kbdrAddr ∧ p.kbsrAddr ≠ pcReset ∧ p.kbdrAddr ≠ pcReset

/-- The readings the spec decides on where it lets a model expose another (D12, D13, D14, D26). -/
abbrev Params.asDecided (p : Params) : Prop :=
  p.jsrrBaseRead = .afterLink ∧ p.linkSetsCc = false ∧ p.trapInSetsCc = true ∧ p.trapLinksR7 = false

/-- FREE VALUE: the bytes IN writes before it reads (D17); no source gives the text. -/
opaque Config.inPrompt : List (BitVec 8)

/-- FREE VALUE: the shutdown message of HALT (D17); no source gives the text. -/
opaque Config.haltMessage : List (BitVec 8)

/-- FREE VALUE: the n-th byte the host supplies beyond those a state lists (R10, R32). -/
opaque Config.hostByte : Nat → BitVec 8

/-- FREE VALUE: whether the n-th poll beyond those a state lists finds a byte; the host's draw (R10). -/
opaque Config.hostReady : Nat → Bool

end Sys2Proof
end

