-- ==== Sys2Proof/Machine/Defaults.lean ====
section
/-! DEFINITION. The parameter values the machine after reset has: the spec's defaults where it gives one, a
free value where it gives none. -/

namespace Sys2Proof.Machine

/-- The spec's defaults (R7; 92_eei_decisions.md D4, D7, D12, D13, D14, D26); the two byte strings have none
(D17) and are the free values of `Config`. -/
def defaultParams : Params where
  kbsrAddr := 0xFE00#16
  kbdrAddr := 0xFE02#16
  resetCond := .zero
  inPrompt := Config.inPrompt
  haltMessage := Config.haltMessage
  jsrrBaseRead := .afterLink
  linkSetsCc := false
  trapInSetsCc := true
  trapLinksR7 := false

end Sys2Proof.Machine
end

