-- ==== Sys2Proof/Machine/State.lean ====
section
/-! DEFINITION. The state of the machine as plain data (R19 to R32), the state after reset (R118), and the
reasons a step can stop. -/

namespace Sys2Proof.Machine

/-- One listed word of memory: its word address and its value. The addressable unit is the 16-bit word and no
byte of it has an address (R34), so a cell holds a word. -/
abbrev Cell := Nat × Word

/-- The memory array of 65536 words (R29) as the list of its non-zero words, addresses strictly rising. An
unlisted address holds 0x0000, the value memory has at construction. -/
abbrev Memory := List Cell

/-- The causes of a fault (R106). -/
inductive FaultCause where
  /-- a fetched word with opcode 1000 or 1101 -/
  | undefinedOpcode
  /-- model-only: PUTS or PUTSP reaching 0xFFFF with a non-zero word -/
  | stringOverrun
  /-- model-only: PUTS or PUTSP reaching KBSR_ADDR -/
  | stringThroughDevice
deriving DecidableEq, Repr

/-- What a fault records (R106). -/
structure FaultInfo where
  cause : FaultCause
  /-- the instruction word -/
  word : Word
  /-- the address the cause names -/
  addr : Word
deriving DecidableEq, Repr

/-- The run state (R27). -/
inductive RunState where
  | running
  | halted
  | faulted (info : FaultInfo)
deriving DecidableEq, Repr

/-- The host's one input stream (R9, R10, R32), as far as it is still to come. -/
structure InputPort where
  /-- the next bytes the host supplies, first byte first -/
  bytes : List Byte
  /-- whether the stream ends after `bytes`; if not, free bytes follow -/
  ended : Bool
  /-- the host's answers to the next polls: whether a byte is available -/
  answers : List Bool
  /-- MODEL'S OWN: how many free bytes have been taken -/
  byteDraws : Nat
  /-- MODEL'S OWN: how many free poll answers have been taken -/
  answerDraws : Nat
deriving DecidableEq, Repr

/-- The whole state of the CORE and of the two host streams it reads and writes. -/
structure State where
  /-- R0 to R7 (R19) -/
  regs : Vector Word 8
  /-- the program counter, a word address (R22) -/
  pc : Word
  /-- the condition-flag register COND (R25) -/
  cond : Cond
  /-- the run state (R27) -/
  run : RunState
  /-- the memory array, the two keyboard words among it (R29, R30) -/
  mem : Memory
  /-- the input stream (R9, R10) -/
  input : InputPort
  /-- the output stream written so far, first byte first (R9, R101) -/
  output : List Byte
  /-- MODEL'S OWN: the machine's named parameters (R7); no step changes them -/
  params : Params
deriving DecidableEq, Repr

/-- Why a step never completes. -/
inductive Fault where
  /-- Raised by GETC and IN when the input stream has ended: the step never completes and the CORE is stuck
  (R100, D15). `output` is the output stream as the host then sees it. SAFE: the model has no step where the
  original might go on. -/
  | inputEnded (output : List Byte)
deriving DecidableEq, Repr

/-- Why the model gives an instruction no meaning. -/
inductive Refusal where
  /-- Raised by an arm of `exec` whose instruction has no meaning yet; no arm of this model does. SAFE. -/
  | notModelled (mnemonic : String)
deriving DecidableEq, Repr

/-- The input port before anything is consumed: what the host will supply is not known (R32), so every byte
and every poll answer is a free value. -/
def InputPort.fresh : InputPort where
  bytes := []
  ended := false
  answers := []
  byteDraws := 0
  answerDraws := 0

/-- The machine with parameters `p` right after construction, with no image loaded (R118). -/
def State.resetWith (p : Params) : State where
  regs := Vector.replicate 8 0x0000#16
  pc := pcReset
  cond := p.resetCond
  run := .running
  mem := []
  input := InputPort.fresh
  output := []
  params := p

/-- The machine right after reset, at the spec's default parameters (R118). -/
def State.reset : State := State.resetWith defaultParams

end Sys2Proof.Machine
end

