-- ==== Sys2Proof/Machine/Memory.lean ====
section
/-! DEFINITION. Reading and writing one word of the memory array (R35), and the canonical form of the list
that holds it. -/

namespace Sys2Proof.Machine

/-- `M[a]`; an unlisted address reads 0x0000, memory being zero-initialised (R29). -/
def Memory.read (m : Memory) (a : Nat) : Word :=
  match m with
  | [] => 0x0000#16
  | (b, w) :: rest => if a = b then w else Memory.read rest a

/-- Put a word at an address, in address order. -/
def Memory.insert (m : Memory) (a : Nat) (v : Word) : Memory :=
  match m with
  | [] => [(a, v)]
  | (b, w) :: rest =>
    if a < b then (a, v) :: (b, w) :: rest
    else if a = b then (a, v) :: rest
    else (b, w) :: Memory.insert rest a v

/-- Take an address off the list, so that it reads 0x0000. -/
def Memory.erase (m : Memory) (a : Nat) : Memory := m.filter (fun c => c.1 != a)

/-- `M[a] <- v` (R39); a zero word is not listed. -/
def Memory.write (m : Memory) (a : Nat) (v : Word) : Memory :=
  if v = 0x0000#16 then m.erase a else m.insert a v

/-- The canonical form: addresses strictly rising, inside the 65536-word array (R33), no zero word listed. -/
abbrev Memory.wf (m : Memory) : Prop :=
  m.Pairwise (fun c d => c.1 < d.1) ∧ ∀ c ∈ m, c.1 < 65536 ∧ c.2 ≠ 0x0000#16

end Sys2Proof.Machine
end

