-- ==== Sys2Proof/Machine/Ops.lean ====
section
/-! DEFINITION. The named operations over the state that every meaning is written with: registers, memory with
the keyboard poll, the two streams, the fetch, and the fault. -/

namespace Sys2Proof.Machine

/-- `x[r]` (R16). -/
def State.reg (s : State) (r : Reg) : Word := s.regs[r]

/-- `x[r] <- v` (R16); no register is hard-wired (R19). -/
def State.setReg (s : State) (r : Reg) (v : Word) : State := { s with regs := s.regs.set r v }

/-- `pc <- t` (R16). -/
def State.setPc (s : State) (t : Word) : State := { s with pc := t }

/-- `SetCC(v)` (R72). -/
def State.setCC (s : State) (v : Word) : State := { s with cond := condOf v }

/-- A result: the register is written, then COND is set from it (R26, R72). -/
def State.writeResult (s : State) (r : Reg) (v : Word) : State := (s.setReg r v).setCC v

/-- `RawRead(a)`: the word at `a`, with no side effect (R38). -/
def State.rawRead (s : State) (a : Word) : Word := s.mem.read a.toNat

/-- `MemWrite(a, 1, v)`: a plain store at every address (R39). -/
def State.memWrite (s : State) (a v : Word) : State := { s with mem := s.mem.write a.toNat v }

/-- The next byte of the input stream and the port after it is consumed; `none` at the end of the stream. -/
def InputPort.take (p : InputPort) : Option (Byte × InputPort) :=
  match p.bytes with
  | b :: rest => some (b, { p with bytes := rest })
  | [] =>
    if p.ended then none
    else some (Config.hostByte p.byteDraws, { p with byteDraws := p.byteDraws + 1 })

/-- Whether the host has a byte available at this poll, its draw (R10), and the port after the draw. -/
def InputPort.draw (p : InputPort) : Bool × InputPort :=
  match p.answers with
  | a :: rest => (a, { p with answers := rest })
  | [] => (Config.hostReady p.answerDraws, { p with answerDraws := p.answerDraws + 1 })

/-- `InPoll()`: non-blocking; a byte found is consumed (R9), and the end of the stream counts as none (D16). -/
def InputPort.poll (p : InputPort) : Option Byte × InputPort :=
  match p.draw with
  | (false, q) => (none, q)
  | (true, q) =>
    match q.take with
    | none => (none, q)
    | some (b, q') => (some b, q')

/-- `KBSR_READY`: the status word after a poll that finds a character (R7, D8). -/
def kbsrReady : Word := 0x8000#16

/-- `Poll()`: the keyboard side effect (R37). -/
def State.poll (s : State) : State :=
  match s.input.poll with
  | (some b, p) =>
    (({ s with input := p }).memWrite s.params.kbsrAddr kbsrReady).memWrite s.params.kbdrAddr (zextByte b)
  | (none, p) => ({ s with input := p }).memWrite s.params.kbsrAddr 0x0000#16

/-- The state after the side effect of reading address `a`: a poll at KBSR_ADDR, none elsewhere (R36). -/
def State.touch (s : State) (a : Word) : State := if a = s.params.kbsrAddr then s.poll else s

/-- `MemRead(a, 1)`: the side effect first, then the word (R36). -/
def State.memRead (s : State) (a : Word) : Word × State := ((s.touch a).rawRead a, s.touch a)

/-- `InRead()`: the next byte of the stream, or `none` when no byte will ever come (R100). -/
def State.inRead (s : State) : Option (Byte × State) :=
  match s.input.take with
  | none => none
  | some (b, p) => some (b, { s with input := p })

/-- `Out(b)` for each byte of a list in order (R101). -/
def State.outBytes (s : State) (bs : List Byte) : State := { s with output := s.output ++ bs }

/-- `Flush()`: adds nothing to the output sequence (R101, D27). -/
def State.flush (s : State) : State := s

/-- `raise Fault(info)`: the run ends FAULTED; nothing is saved, no handler runs, nothing else changes (R105). -/
def State.raiseFault (s : State) (info : FaultInfo) : State := { s with run := .faulted info }

/-- `run <- HALTED` (R98). -/
def State.halt (s : State) : State := { s with run := .halted }

/-- The fetch of one step: `w <- MemRead(pc, 1); pc <- pc + 1` (R68). -/
def State.fetch (s : State) : Word × State :=
  ((s.memRead s.pc).1, (s.memRead s.pc).2.setPc (s.pc + 1#16))

/-- The link write of JSR and JSRR: R7 takes the return address (R81, R82); COND is left alone unless the
parameter `LINK_SETS_CC` says otherwise (D12). -/
def State.link (s : State) : State :=
  if s.params.linkSetsCc then s.writeResult 7 s.pc else s.setReg 7 s.pc

/-- What TRAP does before its routine: nothing, unless the parameter `TRAP_LINKS_R7` has it write R7 (D14). -/
def State.trapEntry (s : State) : State :=
  if s.params.trapLinksR7 then s.setReg 7 s.pc else s

/-- R0 takes a byte read by GETC or IN, and COND is set from it (D13) unless `TRAPIN_SETS_CC` is off. -/
def State.receiveChar (s : State) (b : Byte) : State :=
  if s.params.trapInSetsCc then s.writeResult 0 (zextByte b) else s.setReg 0 (zextByte b)

/-- A state in which the next fetch is of `w`: running, and `w` stored at the pc. Where the pc is KBSR_ADDR,
whose word a fetch overwrites (R36), the pc moves on by one word first. -/
def State.placeForFetch (s : State) (w : Word) : State :=
  let t := if s.pc = s.params.kbsrAddr then s.setPc (s.pc + 1#16) else s
  ({ t with run := .running }).memWrite t.pc w

end Sys2Proof.Machine
end

