-- ==== Sys2Proof/Machine/Operands.lean ====
section
/-! DEFINITION. Every operand form: the immediates and offsets of R63 and the addressing modes of R84. The pc
of these definitions is the incremented one (R22). -/

namespace Sys2Proof.Machine

/-- ADD's and AND's second operand in immediate form (R63). -/
def immOperand (imm : BitVec 5) : Word := sext imm

/-- PC-relative address of BR, LD, LDI, LEA, ST and STI: `pc + sext_9(w[8:0])` (R84). -/
def pcRel9 (s : State) (off : BitVec 9) : Word := s.pc + sext off

/-- PC-relative target of JSR: `pc + sext_11(w[10:0])` (R81). -/
def pcRel11 (s : State) (off : BitVec 11) : Word := s.pc + sext off

/-- Base + offset address of LDR and STR: `x[BaseR] + sext_6(w[5:0])` (R84). -/
def baseOff6 (s : State) (base : Reg) (off : BitVec 6) : Word := s.reg base + sext off

/-- Indirect address of LDI and STI: the pointer read through `MemRead`, with its side effect (R84, R41). -/
def indirect9 (s : State) (off : BitVec 9) : Word × State := s.memRead (pcRel9 s off)

end Sys2Proof.Machine
end

