-- ==== Sys2Proof/Machine/Control.lean ====
section
/-! DEFINITION. The control transfers BR, JMP, RET, JSR, JSRR (R79 to R83). -/

namespace Sys2Proof.Machine

/-- BR (R79): taken when a condition bit meets COND. -/
def execBr (nzp : BitVec 3) (off : BitVec 9) (s : State) : Host.Outcome State Fault Refusal :=
  .next (if branchTaken nzp s.cond then s.setPc (pcRel9 s off) else s)

/-- JMP BaseR (R80). -/
def execJmp (base : Reg) (s : State) : Host.Outcome State Fault Refusal :=
  .next (s.setPc (s.reg base))

/-- RET, which is JMP R7 (R80). -/
def execRet (s : State) : Host.Outcome State Fault Refusal :=
  .next (s.setPc (s.reg 7))

/-- JSR (R81): the link, then the PC-relative target. -/
def execJsr (off : BitVec 11) (s : State) : Host.Outcome State Fault Refusal :=
  .next (s.link.setPc (pcRel11 s off))

/-- JSRR BaseR (R82): the link, then the base register, read after the link write unless the parameter
`JSRR_BASE_READ` says before (D26). -/
def execJsrr (base : Reg) (s : State) : Host.Outcome State Fault Refusal :=
  match s.params.jsrrBaseRead with
  | .afterLink => .next (s.link.setPc (s.link.reg base))
  | .beforeLink => .next (s.link.setPc (s.reg base))

end Sys2Proof.Machine
end

