-- ==== Sys2Proof/Machine/LoadStore.lean ====
section
/-! DEFINITION. Loads, stores and LEA (R84 to R91). Every read goes through `MemRead` (R41). -/

namespace Sys2Proof.Machine

/-- The end of every load: `v <- MemRead(ea, 1); x[DR] <- v; SetCC(v)` (R85). -/
def State.loadFrom (s : State) (dr : Reg) (ea : Word) : State :=
  (s.memRead ea).2.writeResult dr (s.memRead ea).1

/-- LD (R85). -/
def execLd (dr : Reg) (off : BitVec 9) (s : State) : Host.Outcome State Fault Refusal :=
  .next (s.loadFrom dr (pcRel9 s off))

/-- LDI (R86): the pointer read first, then the data read. -/
def execLdi (dr : Reg) (off : BitVec 9) (s : State) : Host.Outcome State Fault Refusal :=
  .next ((indirect9 s off).2.loadFrom dr (indirect9 s off).1)

/-- LDR (R87). -/
def execLdr (dr base : Reg) (off : BitVec 6) (s : State) : Host.Outcome State Fault Refusal :=
  .next (s.loadFrom dr (baseOff6 s base off))

/-- LEA (R88): the address, with no memory access. -/
def execLea (dr : Reg) (off : BitVec 9) (s : State) : Host.Outcome State Fault Refusal :=
  .next (s.writeResult dr (pcRel9 s off))

/-- ST (R89). -/
def execSt (sr : Reg) (off : BitVec 9) (s : State) : Host.Outcome State Fault Refusal :=
  .next (s.memWrite (pcRel9 s off) (s.reg sr))

/-- STI (R90): the pointer read, then the store. -/
def execSti (sr : Reg) (off : BitVec 9) (s : State) : Host.Outcome State Fault Refusal :=
  .next ((indirect9 s off).2.memWrite (indirect9 s off).1 (s.reg sr))

/-- STR (R91). -/
def execStr (sr base : Reg) (off : BitVec 6) (s : State) : Host.Outcome State Fault Refusal :=
  .next (s.memWrite (baseOff6 s base off) (s.reg sr))

end Sys2Proof.Machine
end

