-- ==== Sys2Proof/Machine/Reserved.lean ====
section
/-! DEFINITION. The two reserved opcodes (R102, R103): each takes the undefined-opcode fault (R106). -/

namespace Sys2Proof.Machine

/-- `raise Fault(UndefinedOpcode)` with the fetched word and its address, the pc being already past it. -/
def State.undefinedOpcode (s : State) (word : Word) : State :=
  s.raiseFault { cause := .undefinedOpcode, word := word, addr := s.pc - 1#16 }

/-- Reserved opcode 1000 (R102). -/
def execReserved1000 (ign : BitVec 12) (s : State) : Host.Outcome State Fault Refusal :=
  .next (s.undefinedOpcode (encode (.reserved1000 ign)))

/-- Reserved opcode 1101 (R103). -/
def execRes (ign : BitVec 12) (s : State) : Host.Outcome State Fault Refusal :=
  .next (s.undefinedOpcode (encode (.res ign)))

end Sys2Proof.Machine
end

