-- ==== Sys2Proof/Machine/TrapService.lean ====
section
/-! DEFINITION. TRAP and the trap-service unit (R92 to R101). A routine runs whole inside its TRAP's step. -/

namespace Sys2Proof.Machine

/-- How the walk along a string ends (R95, R97, R107). -/
inductive StringEnd where
  | terminated
  | overrun
  | throughDevice
deriving DecidableEq, Repr

/-- PUTS's bytes of a word: its low byte (R95). -/
def putsBytes (c : Word) : List Byte := [lowByte c]

/-- PUTSP's bytes of a word: the low byte always, then the high byte if it is not zero (R97, D30). -/
def putspBytes (c : Word) : List Byte :=
  if highByte c = 0x00#8 then [lowByte c] else [lowByte c, highByte c]

/-- The loop of PUTS and PUTSP from address `a` (R95, R97): the bytes written and how it ends. The device check
comes before the read, the overrun check after the word at 0xFFFF has been written. `fuel` bounds the walk;
with 65536 it never runs out, since the walk stops at 0xFFFF. -/
def scanString (bytesOf : Word → List Byte) (kbsr : Word) (m : Memory) : Nat → Word → List Byte × StringEnd
  | 0, _ => ([], .overrun)
  | fuel + 1, a =>
    if a = kbsr then ([], .throughDevice)
    else if m.read a.toNat = 0x0000#16 then ([], .terminated)
    else if a = 0xFFFF#16 then (bytesOf (m.read a.toNat), .overrun)
    else
      let rest := scanString bytesOf kbsr m fuel (a + 1#16)
      (bytesOf (m.read a.toNat) ++ rest.1, rest.2)

/-- The fault a string's end raises, if any, for the TRAP word `word` (R106, R107). -/
def stringFault (kbsr word : Word) : StringEnd → Option FaultInfo
  | .terminated => none
  | .overrun => some { cause := .stringOverrun, word := word, addr := 0xFFFF#16 }
  | .throughDevice => some { cause := .stringThroughDevice, word := word, addr := kbsr }

/-- PUTS and PUTSP after the TRAP's entry: write the string at R0, then go on or raise the model-only fault
(R95, R97, R107). -/
def State.writeString (s : State) (bytesOf : Word → List Byte) (word : Word) : State :=
  let r := scanString bytesOf s.params.kbsrAddr s.mem 65536 (s.reg 0)
  match stringFault s.params.kbsrAddr word r.2 with
  | none => (s.outBytes r.1).flush
  | some info => (s.outBytes r.1).raiseFault info

/-- The routine GETC (R93), stuck at the end of input (R100). -/
def getcRoutine (s : State) : Host.Outcome State Fault Refusal :=
  match s.inRead with
  | none => .fault (.inputEnded s.output)
  | some (b, t) => .next (t.receiveChar b)

/-- The routine OUT (R94). -/
def outRoutine (s : State) : Host.Outcome State Fault Refusal :=
  .next (s.outBytes [lowByte (s.reg 0)]).flush

/-- The routine PUTS (R95). -/
def putsRoutine (word : Word) (s : State) : Host.Outcome State Fault Refusal :=
  .next (s.writeString putsBytes word)

/-- The routine IN (R96): the prompt is written before the read, so it is visible when the CORE is stuck. -/
def inRoutine (s : State) : Host.Outcome State Fault Refusal :=
  let prompted := (s.outBytes s.params.inPrompt).flush
  match prompted.inRead with
  | none => .fault (.inputEnded prompted.output)
  | some (b, t) => .next ((t.outBytes [b]).flush.receiveChar b)

/-- The routine PUTSP (R97). -/
def putspRoutine (word : Word) (s : State) : Host.Outcome State Fault Refusal :=
  .next (s.writeString putspBytes word)

/-- The routine HALT (R98). -/
def haltRoutine (s : State) : Host.Outcome State Fault Refusal :=
  .next (s.outBytes s.params.haltMessage).flush.halt

/-- TRAP (R92): the vector selects the routine; any other vector is a no-op (R99). -/
def execTrap (ign : BitVec 4) (vect : BitVec 8) (s : State) : Host.Outcome State Fault Refusal :=
  match vect with
  | 0x20#8 => getcRoutine s.trapEntry
  | 0x21#8 => outRoutine s.trapEntry
  | 0x22#8 => putsRoutine (encode (.trap ign vect)) s.trapEntry
  | 0x23#8 => inRoutine s.trapEntry
  | 0x24#8 => putspRoutine (encode (.trap ign vect)) s.trapEntry
  | 0x25#8 => haltRoutine s.trapEntry
  | _ => .next s.trapEntry

/-- TRAP x20, GETC (R93). -/
def execGetc (s : State) : Host.Outcome State Fault Refusal := getcRoutine s.trapEntry

/-- TRAP x21, OUT (R94). -/
def execOut (s : State) : Host.Outcome State Fault Refusal := outRoutine s.trapEntry

/-- TRAP x22, PUTS (R95); a fault records the TRAP's word (R106). -/
def execPuts (ign : BitVec 4) (s : State) : Host.Outcome State Fault Refusal :=
  putsRoutine (encode (.puts ign)) s.trapEntry

/-- TRAP x23, IN (R96). -/
def execIn (s : State) : Host.Outcome State Fault Refusal := inRoutine s.trapEntry

/-- TRAP x24, PUTSP (R97); a fault records the TRAP's word (R106). -/
def execPutsp (ign : BitVec 4) (s : State) : Host.Outcome State Fault Refusal :=
  putspRoutine (encode (.putsp ign)) s.trapEntry

/-- TRAP x25, HALT (R98). -/
def execHalt (s : State) : Host.Outcome State Fault Refusal := haltRoutine s.trapEntry

end Sys2Proof.Machine
end

