-- ==== Sys2Proof/Machine/Step.lean ====
section
/-! DEFINITION. One step of the CORE (R68, R69), and the placing of a word where the next step fetches it. -/

namespace Sys2Proof.Machine

/-- One step: a RUNNING core fetches, increments the pc, decodes and executes (R68). A HALTED or FAULTED core
takes no step and changes nothing (R69). -/
def step (s : State) : Host.Outcome State Fault Refusal :=
  match s.run with
  | .running => exec (decode s.fetch.1) s.fetch.2
  | .halted => .next s
  | .faulted _ => .next s

/-- The state with an instruction word, numbered as the opcode table numbers it, placed where `step` fetches
next. -/
def State.withFetchWord (s : State) (nbits w : Nat) : State :=
  s.placeForFetch (BitVec.ofNat 16 (w % 2 ^ nbits))

end Sys2Proof.Machine
end

