-- ==== Sys2Proof/Machine/Image.lean ====
section
/-! DEFINITION. The load port: the program-image wire format and the loading of images before the first step
(R54 to R58, R118). -/

namespace Sys2Proof.Machine

/-- An image file as the host finds it (R57). -/
inductive ImageFile where
  | cannotOpen
  | contents (bytes : List Byte)
deriving DecidableEq, Repr

/-- Why a load fails; then no run starts (R55, R57). -/
inductive LoadFailure where
  /-- the file cannot be opened -/
  | cannotOpen
  /-- fewer than two bytes: the image has no origin -/
  | noOrigin
deriving DecidableEq, Repr

/-- What the loading of images gives: a machine ready for its first step, or a load failure. -/
inductive LoadResult where
  | ready (s : State)
  | failed (why : LoadFailure)
deriving DecidableEq, Repr

/-- The big-endian words of a byte sequence; a final odd byte is ignored (R54, R55). -/
def wordsOfBytes : List Byte → List Word
  | hi :: lo :: rest => wordOfBytes hi lo :: wordsOfBytes rest
  | _ => []

/-- `Load(origin, words)`: one word after the other from the origin up, words beyond 0xFFFF dropped (R55). The
load writes memory directly and never polls. -/
def State.loadWords (s : State) (origin : Word) : List Word → State
  | [] => s
  | w :: rest =>
    if origin = 0xFFFF#16 then s.memWrite origin w
    else (s.memWrite origin w).loadWords (origin + 1#16) rest

/-- Load one image: its first two bytes are the origin (R54). -/
def State.loadImage (s : State) : ImageFile → LoadResult
  | .cannotOpen => .failed .cannotOpen
  | .contents (hi :: lo :: rest) => .ready (s.loadWords (wordOfBytes hi lo) (wordsOfBytes rest))
  | .contents _ => .failed .noOrigin

/-- Load images in sequence into the one address space; the first failure ends it (R56, R57). -/
def State.loadImages (s : State) : List ImageFile → LoadResult
  | [] => .ready s
  | f :: rest =>
    match s.loadImage f with
    | .ready t => t.loadImages rest
    | .failed why => .failed why

/-- Construction, then the loading of images, with the host's input stream connected (R118, R120). The load
port is used nowhere else (R58). -/
def boot (p : Params) (input : InputPort) (images : List ImageFile) : LoadResult :=
  ({ State.resetWith p with input := input }).loadImages images

end Sys2Proof.Machine
end

