-- ==== Sys2Proof/Safety.lean ====
section
/-! DEFINITION. The terms claims are made in: the invariant of the state, what a safe run is, and, from the
spec's own tables, what each instruction may write. -/

namespace Sys2Proof.Machine

/-- The invariant of every state the model means: memory in its canonical form, and the keyboard addresses as
R8 requires them. -/
abbrev State.inv (s : State) : Prop := s.mem.wf ∧ s.params.wf

/-- The run has ended FAULTED (R104). No claim reads the registers, COND or memory of such a state (R105). -/
def State.isFaulted (s : State) : Bool :=
  match s.run with
  | .faulted _ => true
  | .running | .halted => false

/-- A run of `k` steps from `s` is safe: it is never stuck and never FAULTED (R104). -/
def SafeFor (k : Nat) (s : State) : Prop :=
  ∀ j, j ≤ k → ∃ t, Sys2Proof.core.run j s = .next t ∧ t.isFaulted = false

/-- The run has ended gracefully after `k` steps (R104). -/
def EndsGracefully (k : Nat) (s : State) : Prop :=
  ∃ t, Sys2Proof.core.run k s = .next t ∧ t.run = .halted

/-- Every register but those listed is the same. -/
def RegsKept (but : List Reg) (s t : State) : Prop := ∀ r, r ∉ but → t.reg r = s.reg r

/-- What a TRAP leaves of the registers: all but R7 and those listed are the same, and R7 is the same too unless
the parameter `TRAP_LINKS_R7` has the TRAP write its return address there (D14). -/
def RegsKeptByTrap (but : List Reg) (s t : State) : Prop :=
  RegsKept (7 :: but) s t ∧ t.reg 7 = if s.params.trapLinksR7 then s.pc else s.reg 7

/-- Every word of memory but those at the addresses listed is the same. -/
def MemKept (but : List Word) (s t : State) : Prop := ∀ a, a ∉ but → t.rawRead a = s.rawRead a

/-- The input and output streams are the same. -/
def StreamsKept (s t : State) : Prop := t.input = s.input ∧ t.output = s.output

/-- The run state and the parameters are the same. -/
def ControlKept (s t : State) : Prop := t.run = s.run ∧ t.params = s.params

/-- The whole effect of an instruction that only writes a result `v` to `dr`: COND is set from it, everything
else is the same. -/
def ResultWritten (dr : Reg) (v : Word) (s t : State) : Prop :=
  t.reg dr = v ∧ t.cond = condOf v ∧ t.pc = s.pc ∧ RegsKept [dr] s t ∧ MemKept [] s t ∧ StreamsKept s t ∧
    ControlKept s t

/-- The whole effect of a load whose last read, made in state `u`, is of address `ea`: `dr` takes the word read,
COND is set from it, and memory and the input stream are as the read leaves them. -/
def Loaded (dr : Reg) (ea : Word) (u t : State) : Prop :=
  t.reg dr = (u.memRead ea).1 ∧ t.cond = condOf (u.memRead ea).1 ∧ t.pc = u.pc ∧ RegsKept [dr] u t ∧
    (∀ a, t.rawRead a = (u.memRead ea).2.rawRead a) ∧ t.input = (u.memRead ea).2.input ∧
    t.output = u.output ∧ ControlKept u t

/-- The whole effect of a plain store of `v` to `ea`, made in state `u`. -/
def Stored (ea v : Word) (u t : State) : Prop :=
  t.rawRead ea = v ∧ MemKept [ea] u t ∧ RegsKept [] u t ∧ t.cond = u.cond ∧ t.pc = u.pc ∧ StreamsKept u t ∧
    ControlKept u t

/-- The whole effect of a control transfer to `target` that writes no register. -/
def Jumped (target : Word) (s t : State) : Prop :=
  t.pc = target ∧ t.cond = s.cond ∧ RegsKept [] s t ∧ MemKept [] s t ∧ StreamsKept s t ∧ ControlKept s t

/-- The string of `n` words at `a` that PUTS or PUTSP writes whole: `n` words that are not zero, then a zero
word, none of them above 0xFFFF and none of them at KBSR_ADDR (R95, R97, R107). -/
def StringAt (s : State) (a : Word) (n : Nat) : Prop :=
  a.toNat + n < 65536 ∧ (∀ k, k ≤ n → a + BitVec.ofNat 16 k ≠ s.params.kbsrAddr) ∧
    (∀ k, k < n → s.rawRead (a + BitVec.ofNat 16 k) ≠ 0x0000#16) ∧
    s.rawRead (a + BitVec.ofNat 16 n) = 0x0000#16

/-- The values of the `n` words from address `a` up, read with no side effect (R38). -/
def wordsAt (s : State) (a : Word) (n : Nat) : List Nat :=
  (List.range n).map (fun k => (s.rawRead (a + BitVec.ofNat 16 k)).toNat)

/-- The values of the bytes that PUTSP writes of a word with value `c`: the low byte, then the high byte if it is
not zero (R97, D30). -/
def packedBytes (c : Nat) : List Nat := if c / 256 = 0 then [c % 256] else [c % 256, c / 256]

/-- Exactly these byte values were appended to the output, in this order (R101). -/
def BytesWritten (values : List Nat) (s t : State) : Prop :=
  ∃ bs : List Byte, t.output = s.output ++ bs ∧ bs.map BitVec.toNat = values

/-- The instruction with every bit the decoder ignores set to 0 (R64). -/
def clearIgnored : Instr → Instr
  | .addReg dr sr1 _ sr2 => .addReg dr sr1 0 sr2
  | .andReg dr sr1 _ sr2 => .andReg dr sr1 0 sr2
  | .notReg dr sr _ => .notReg dr sr 0
  | .jmp _ base _ => .jmp 0 base 0
  | .ret => .jmp 0 7 0
  | .jsrr _ base _ => .jsrr 0 base 0
  | .trap _ vect => .trap 0 vect
  | .getc _ => .trap 0 0x20#8
  | .out _ => .trap 0 0x21#8
  | .puts _ => .trap 0 0x22#8
  | .inChar _ => .trap 0 0x23#8
  | .putsp _ => .trap 0 0x24#8
  | .halt _ => .trap 0 0x25#8
  | .reserved1000 _ => .reserved1000 0
  | .res _ => .res 0
  | .br nzp off => .br nzp off
  | .addImm dr sr1 imm => .addImm dr sr1 imm
  | .andImm dr sr1 imm => .andImm dr sr1 imm
  | .ld dr off => .ld dr off
  | .ldi dr off => .ldi dr off
  | .ldr dr base off => .ldr dr base off
  | .lea dr off => .lea dr off
  | .st sr off => .st sr off
  | .sti sr off => .sti sr off
  | .str sr base off => .str sr base off
  | .jsr off => .jsr off

/-- An outcome without the instruction word that a fault records (R106). -/
def forgetWord : Host.Outcome State Fault Refusal → Host.Outcome State Fault Refusal
  | .next t =>
    match t.run with
    | .faulted info => .next { t with run := .faulted { info with word := 0 } }
    | .running | .halted => .next t
  | .fault why => .fault why
  | .refused why => .refused why

/-- The general register an instruction writes, the table of R20. The link of JSR and JSRR is R7. -/
def writtenReg : Instr → Option Reg
  | .addReg dr _ _ _ | .addImm dr _ _ | .andReg dr _ _ _ | .andImm dr _ _ | .notReg dr _ _ => some dr
  | .ld dr _ | .ldi dr _ | .ldr dr _ _ | .lea dr _ => some dr
  | .jsr _ | .jsrr _ _ _ => some 7
  | .getc _ | .inChar _ => some 0
  | .trap _ vect => if vect = 0x20#8 ∨ vect = 0x23#8 then some 0 else none
  | .br _ _ | .jmp _ _ _ | .ret | .st _ _ | .sti _ _ | .str _ _ _ | .out _ | .puts _ | .putsp _ | .halt _
  | .reserved1000 _ | .res _ => none

/-- The instructions that run SetCC (R26). -/
def setsCond : Instr → Bool
  | .addReg .. | .addImm .. | .andReg .. | .andImm .. | .notReg .. | .ld .. | .ldi .. | .ldr .. | .lea .. => true
  | .getc _ | .inChar _ => true
  | .trap _ vect => vect == 0x20#8 || vect == 0x23#8
  | .br .. | .jsr .. | .jsrr .. | .jmp .. | .ret | .st .. | .sti .. | .str .. | .out _ | .puts _ | .putsp _
  | .halt _ | .reserved1000 _ | .res _ => false

/-- The register whose word an instruction stores (R89 to R91). -/
def storeSource : Instr → Option Reg
  | .st sr _ | .sti sr _ | .str sr _ _ => some sr
  | .br .. | .addReg .. | .addImm .. | .ld .. | .jsr .. | .jsrr .. | .andReg .. | .andImm .. | .ldr ..
  | .reserved1000 .. | .notReg .. | .ldi .. | .jmp .. | .res .. | .lea .. | .trap .. | .ret | .getc ..
  | .out .. | .puts .. | .inChar .. | .putsp .. | .halt .. => none

/-- The address an instruction stores to (R89 to R91). -/
def storeAddr (i : Instr) (s : State) : Option Word :=
  match i with
  | .st _ off => some (pcRel9 s off)
  | .sti _ off => some (indirect9 s off).1
  | .str _ base off => some (baseOff6 s base off)
  | .br .. | .addReg .. | .addImm .. | .ld .. | .jsr .. | .jsrr .. | .andReg .. | .andImm .. | .ldr ..
  | .reserved1000 .. | .notReg .. | .ldi .. | .jmp .. | .res .. | .lea .. | .trap .. | .ret | .getc ..
  | .out .. | .puts .. | .inChar .. | .putsp .. | .halt .. => none

/-- The addresses an instruction reads through `MemRead` after its fetch, in order (R41). -/
def readAddrs (i : Instr) (s : State) : List Word :=
  match i with
  | .ld _ off => [pcRel9 s off]
  | .ldr _ base off => [baseOff6 s base off]
  | .ldi _ off => [pcRel9 s off, (indirect9 s off).1]
  | .sti _ off => [pcRel9 s off]
  | .br .. | .addReg .. | .addImm .. | .st .. | .str .. | .jsr .. | .jsrr .. | .andReg .. | .andImm ..
  | .reserved1000 .. | .notReg .. | .jmp .. | .res .. | .lea .. | .trap .. | .ret | .getc ..
  | .out .. | .puts .. | .inChar .. | .putsp .. | .halt .. => []

/-- Whether an instruction polls the keyboard after its fetch (R41, R44). -/
def polls (i : Instr) (s : State) : Prop := s.params.kbsrAddr ∈ readAddrs i s

/-- The vector of a TRAP word, whichever row of the table the word has (R92). -/
def trapVector : Instr → Option (BitVec 8)
  | .trap _ vect => some vect
  | .getc _ => some 0x20#8
  | .out _ => some 0x21#8
  | .puts _ => some 0x22#8
  | .inChar _ => some 0x23#8
  | .putsp _ => some 0x24#8
  | .halt _ => some 0x25#8
  | .br .. | .addReg .. | .addImm .. | .ld .. | .st .. | .jsr .. | .jsrr .. | .andReg .. | .andImm .. | .ldr ..
  | .str .. | .reserved1000 .. | .notReg .. | .ldi .. | .sti .. | .jmp .. | .res .. | .lea .. | .ret => none

/-- The control transfers, the only instructions that change the incremented pc (R23). -/
def transfersControl : Instr → Bool
  | .br .. | .jmp .. | .ret | .jsr .. | .jsrr .. => true
  | .addReg .. | .addImm .. | .ld .. | .st .. | .andReg .. | .andImm .. | .ldr .. | .str .. | .reserved1000 ..
  | .notReg .. | .ldi .. | .sti .. | .res .. | .lea .. | .trap .. | .getc .. | .out .. | .puts .. | .inChar ..
  | .putsp .. | .halt .. => false

/-- The two reserved opcodes (R65). -/
def isReserved : Instr → Bool
  | .reserved1000 .. | .res .. => true
  | .br .. | .addReg .. | .addImm .. | .ld .. | .st .. | .jsr .. | .jsrr .. | .andReg .. | .andImm .. | .ldr ..
  | .str .. | .notReg .. | .ldi .. | .sti .. | .jmp .. | .lea .. | .trap .. | .ret | .getc .. | .out .. | .puts ..
  | .inChar .. | .putsp .. | .halt .. => false

end Sys2Proof.Machine
end

