-- ==== Sys2Proof/Certificates/Slice0/Obligations.lean ====
section
/-! DEFINITION. The statements for the provers. `pc` in a statement about `exec` is the incremented pc (R22). -/

open Sys2Proof Sys2Proof.Machine

/-! ### Encoding -/

/-- Words written out from the spec's own worked examples (R73 to R103) decode to the instructions they stand
for, one at least of each family. -/
def Obligations.WorkedExampleWordsDecode : Prop :=
  decode 0x1401#16 = .addReg 2 0 0 1 ∧ decode 0x1025#16 = .addImm 0 0 5 ∧ decode 0x5642#16 = .andReg 3 1 0 2 ∧
  decode 0x923F#16 = .notReg 1 0 0x3F#6 ∧ decode 0x0403#16 = .br 0b010#3 3 ∧ decode 0xC1C0#16 = .ret ∧
  decode 0xC080#16 = .jmp 0 2 0 ∧ decode 0x4805#16 = .jsr 5 ∧ decode 0x4080#16 = .jsrr 0 2 0 ∧
  decode 0x2202#16 = .ld 1 2 ∧ decode 0x647F#16 = .ldr 2 1 0x3F#6 ∧ decode 0xB001#16 = .sti 0 1 ∧
  decode 0xF021#16 = .out 0 ∧ decode 0xF125#16 = .halt 1 ∧ decode 0x8000#16 = .reserved1000 0 ∧
  decode 0xD000#16 = .res 0

/-- What each word decodes to, its fields computed from the word's value: bits [hi:lo] are the value divided by
2^lo, modulo 2^(hi-lo+1). The opcode numbers, the field places and the vectors are the spec's decisions D1 to D3
(R60 to R62, R67). -/
def Obligations.FieldsAreReadFromTheirBits : Prop :=
  ∀ (w : Word) (n : Nat), n = w.toNat →
    (n / 4096 = 0 → decode w = .br (BitVec.ofNat 3 (n / 512)) (BitVec.ofNat 9 n)) ∧
    (n / 4096 = 1 → n / 32 % 2 = 0 →
      decode w = .addReg (Fin.ofNat 8 (n / 512)) (Fin.ofNat 8 (n / 64)) (BitVec.ofNat 2 (n / 8)) (Fin.ofNat 8 n)) ∧
    (n / 4096 = 1 → n / 32 % 2 = 1 →
      decode w = .addImm (Fin.ofNat 8 (n / 512)) (Fin.ofNat 8 (n / 64)) (BitVec.ofNat 5 n)) ∧
    (n / 4096 = 2 → decode w = .ld (Fin.ofNat 8 (n / 512)) (BitVec.ofNat 9 n)) ∧
    (n / 4096 = 3 → decode w = .st (Fin.ofNat 8 (n / 512)) (BitVec.ofNat 9 n)) ∧
    (n / 4096 = 4 → n / 2048 % 2 = 1 → decode w = .jsr (BitVec.ofNat 11 n)) ∧
    (n / 4096 = 4 → n / 2048 % 2 = 0 →
      decode w = .jsrr (BitVec.ofNat 2 (n / 512)) (Fin.ofNat 8 (n / 64)) (BitVec.ofNat 6 n)) ∧
    (n / 4096 = 5 → n / 32 % 2 = 0 →
      decode w = .andReg (Fin.ofNat 8 (n / 512)) (Fin.ofNat 8 (n / 64)) (BitVec.ofNat 2 (n / 8)) (Fin.ofNat 8 n)) ∧
    (n / 4096 = 5 → n / 32 % 2 = 1 →
      decode w = .andImm (Fin.ofNat 8 (n / 512)) (Fin.ofNat 8 (n / 64)) (BitVec.ofNat 5 n)) ∧
    (n / 4096 = 6 → decode w = .ldr (Fin.ofNat 8 (n / 512)) (Fin.ofNat 8 (n / 64)) (BitVec.ofNat 6 n)) ∧
    (n / 4096 = 7 → decode w = .str (Fin.ofNat 8 (n / 512)) (Fin.ofNat 8 (n / 64)) (BitVec.ofNat 6 n)) ∧
    (n / 4096 = 8 → decode w = .reserved1000 (BitVec.ofNat 12 n)) ∧
    (n / 4096 = 9 → decode w = .notReg (Fin.ofNat 8 (n / 512)) (Fin.ofNat 8 (n / 64)) (BitVec.ofNat 6 n)) ∧
    (n / 4096 = 10 → decode w = .ldi (Fin.ofNat 8 (n / 512)) (BitVec.ofNat 9 n)) ∧
    (n / 4096 = 11 → decode w = .sti (Fin.ofNat 8 (n / 512)) (BitVec.ofNat 9 n)) ∧
    (n / 4096 = 12 → n ≠ 0xC1C0 →
      decode w = .jmp (BitVec.ofNat 3 (n / 512)) (Fin.ofNat 8 (n / 64)) (BitVec.ofNat 6 n)) ∧
    (n = 0xC1C0 → decode w = .ret) ∧
    (n / 4096 = 13 → decode w = .res (BitVec.ofNat 12 n)) ∧
    (n / 4096 = 14 → decode w = .lea (Fin.ofNat 8 (n / 512)) (BitVec.ofNat 9 n)) ∧
    (n / 4096 = 15 → n % 256 < 0x20 ∨ 0x25 < n % 256 →
      decode w = .trap (BitVec.ofNat 4 (n / 256)) (BitVec.ofNat 8 n)) ∧
    (n / 4096 = 15 → n % 256 = 0x20 → decode w = .getc (BitVec.ofNat 4 (n / 256))) ∧
    (n / 4096 = 15 → n % 256 = 0x21 → decode w = .out (BitVec.ofNat 4 (n / 256))) ∧
    (n / 4096 = 15 → n % 256 = 0x22 → decode w = .puts (BitVec.ofNat 4 (n / 256))) ∧
    (n / 4096 = 15 → n % 256 = 0x23 → decode w = .inChar (BitVec.ofNat 4 (n / 256))) ∧
    (n / 4096 = 15 → n % 256 = 0x24 → decode w = .putsp (BitVec.ofNat 4 (n / 256))) ∧
    (n / 4096 = 15 → n % 256 = 0x25 → decode w = .halt (BitVec.ofNat 4 (n / 256)))

/-- Decoding an encoded well-formed instruction gives it back, whatever its operands (R61 to R63). -/
def Obligations.DecodeOfEncodeIsIdentity : Prop :=
  ∀ i : Instr, i.wf = true → decode (encode i) = i

/-- Every word decodes to a well-formed instruction whose word it is, and that is the only well-formed instruction
with this word: no bit is dropped, and no two well-formed instructions share a word (R59, R60). -/
def Obligations.EveryWordIsOneInstruction : Prop :=
  ∀ w : Word, (decode w).wf = true ∧ encode (decode w) = w ∧
    ∀ i : Instr, i.wf = true → encode i = w → i = decode w

/-- Exactly the opcodes 1000 and 1101 are illegal; executing either raises the undefined-opcode fault, and no
other word does (R65). That the number of the one the source does not number is 1000 is the spec's decision D1
(log 5); that a fault is a next state whose run state is FAULTED is D21 (log 8). -/
def Obligations.ExactlyTwoOpcodesAreIllegal : Prop :=
  ∀ (w : Word) (s : State), s.run = .running →
    ((opcodeOf w = 0b1000#4 ∨ opcodeOf w = 0b1101#4) ↔ isReserved (decode w) = true) ∧
    (isReserved (decode w) = true → ∃ t, exec (decode w) s = .next t ∧
      ∃ info, t.run = .faulted info ∧ info.cause = .undefinedOpcode) ∧
    (isReserved (decode w) = false → ∀ t info, exec (decode w) s = .next t → t.run = .faulted info →
      info.cause ≠ .undefinedOpcode)

/-- The bits the decoder ignores change nothing but the word a fault records: every instruction executes as the
one with those bits zero. RET executes as JMP R7, and the six named traps as TRAP with their vectors (R64, R80,
R92). -/
def Obligations.IgnoredBitsHaveNoEffect : Prop :=
  ∀ (i : Instr) (s : State), forgetWord (exec i s) = forgetWord (exec (clearIgnored i) s)

/-- Sign extension has the value R14 gives it, and truncating it gives the field back. -/
def Obligations.SignExtensionRoundTrips : Prop :=
  ∀ (n : Nat) (v : BitVec n), n ≤ 16 →
    (sext v).setWidth n = v ∧
    (sext v).toNat = if v.msb then v.toNat + (0x10000 - 2 ^ n) else v.toNat

/-! ### Reset and image loading -/

/-- The machine right after construction, for every value of the parameters, and the parameters that the machine
after reset has. That R0 to R7 are zero is the spec's decision D6 (log 1), COND is the open parameter RESET_COND
(D7, log 2), and the input port is the model's (log 6). The parameters are the spec's defaults (R7; D4, log 4; D12,
D13, D14, D26, log 12) and, for the two byte strings, free values (D17, log 7). -/
def Obligations.ResetLeavesTheInitialState : Prop :=
  (∀ p : Params, (State.resetWith p).pc = 0x3000#16 ∧ (State.resetWith p).run = .running ∧
    (∀ r, (State.resetWith p).reg r = 0x0000#16) ∧ (∀ a, (State.resetWith p).rawRead a = 0x0000#16) ∧
    (State.resetWith p).cond = p.resetCond ∧ (State.resetWith p).input = InputPort.fresh ∧
    (State.resetWith p).output = [] ∧ (State.resetWith p).params = p) ∧
  State.reset = State.resetWith {
    kbsrAddr := 0xFE00#16, kbdrAddr := 0xFE02#16, resetCond := .zero, inPrompt := Config.inPrompt,
    haltMessage := Config.haltMessage, jsrrBaseRead := .afterLink, linkSetsCc := false, trapInSetsCc := true,
    trapLinksR7 := false }

/-- The state after reset meets the invariant. -/
def Obligations.ResetMeetsTheInvariant : Prop := State.reset.inv

/-- Whatever images are loaded, a machine that is ready starts at 0x3000 (R24, R56). -/
def Obligations.BootStartsAtTheEntryPoint : Prop :=
  ∀ (p : Params) (input : InputPort) (images : List ImageFile) (s : State),
    boot p input images = .ready s → s.pc = 0x3000#16

/-- Loading (R118, R55 to R57): with no image the machine is as constructed, with the host's input connected.
Images that each hold two bytes or more load, one after the other. A further image puts its words from its origin
up over what the earlier ones left there, drops those beyond 0xFFFF and changes no other word. A machine that is
ready differs from the constructed one in memory alone, and memory is in its canonical form. That a final odd byte
makes no word and that the load never polls are the spec's decision D22. -/
def Obligations.BootWritesOnlyMemory : Prop :=
  ∀ (p : Params) (input : InputPort) (images : List ImageFile),
    boot p input [] = .ready { State.resetWith p with input := input } ∧
    ((∀ f ∈ images, ∃ b0 b1 rest, f = .contents (b0 :: b1 :: rest)) → ∃ s, boot p input images = .ready s) ∧
    ∀ s : State, boot p input images = .ready s →
      (s = { State.resetWith p with input := input, mem := s.mem } ∧ s.mem.wf) ∧
      ∀ (b0 b1 : Byte) (rest : List Byte), ∃ t,
        boot p input (images ++ [.contents (b0 :: b1 :: rest)]) = .ready t ∧
        (∀ (k : Nat) (hi lo : Byte), rest[2 * k]? = some hi → rest[2 * k + 1]? = some lo →
          b0.toNat * 256 + b1.toNat + k ≤ 0xFFFF →
          (t.rawRead (BitVec.ofNat 16 (b0.toNat * 256 + b1.toNat + k))).toNat = hi.toNat * 256 + lo.toNat) ∧
        (∀ a : Word, a.toNat < b0.toNat * 256 + b1.toNat ∨ b0.toNat * 256 + b1.toNat + rest.length / 2 ≤ a.toNat →
          t.rawRead a = s.rawRead a)

/-- The wire format of an image (R54): a big-endian origin, then big-endian words. -/
def Obligations.ImageIsBigEndian : Prop :=
  ∀ (s : State) (b0 b1 : Byte) (rest : List Byte),
    ∃ (origin : Word) (ws : List Word),
      s.loadImage (.contents (b0 :: b1 :: rest)) = .ready (s.loadWords origin ws) ∧
      origin.toNat = b0.toNat * 256 + b1.toNat ∧ ws.length = rest.length / 2 ∧
      ∀ (k : Nat) (hi lo : Byte), rest[2 * k]? = some hi → rest[2 * k + 1]? = some lo →
        ∃ w, ws[k]? = some w ∧ w.toNat = hi.toNat * 256 + lo.toNat

/-- Loading puts word k at origin + k, drops the words beyond 0xFFFF, changes no other word and nothing beside
memory, and never polls (R55, decision D22). -/
def Obligations.LoadedWordsStandFromTheOrigin : Prop :=
  ∀ (s : State) (origin : Word) (ws : List Word),
    (∀ (k : Nat) (w : Word), ws[k]? = some w → origin.toNat + k ≤ 0xFFFF →
      (s.loadWords origin ws).rawRead (origin + BitVec.ofNat 16 k) = w) ∧
    (∀ a : Word, a.toNat < origin.toNat ∨ origin.toNat + ws.length ≤ a.toNat →
      (s.loadWords origin ws).rawRead a = s.rawRead a) ∧
    RegsKept [] s (s.loadWords origin ws) ∧ (s.loadWords origin ws).pc = s.pc ∧
    (s.loadWords origin ws).cond = s.cond ∧ StreamsKept s (s.loadWords origin ws) ∧
    ControlKept s (s.loadWords origin ws)

/-- A file that cannot be opened, or that has fewer than two bytes (D22), anywhere among the images is a load
failure, and no run starts (R57). -/
def Obligations.LoadFailureStartsNoRun : Prop :=
  ∀ (p : Params) (input : InputPort) (before after : List ImageFile) (f : ImageFile),
    (f = .cannotOpen ∨ ∃ bytes, f = .contents bytes ∧ bytes.length < 2) →
      ∀ s, boot p input (before ++ f :: after) ≠ .ready s

/-! ### Flags and the operate instructions -/

/-- SetCC: N exactly when bit 15 is set, Z exactly when the value is zero, P otherwise; COND is the only change
(R72). -/
def Obligations.SetCCFollowsTheValue : Prop :=
  ∀ (s : State) (v : Word),
    ((s.setCC v).cond = .neg ↔ 0x8000 ≤ v.toNat) ∧ ((s.setCC v).cond = .zero ↔ v.toNat = 0) ∧
    ((s.setCC v).cond = .pos ↔ 0 < v.toNat ∧ v.toNat < 0x8000) ∧
    (s.setCC v).pc = s.pc ∧ RegsKept [] s (s.setCC v) ∧ MemKept [] s (s.setCC v) ∧ StreamsKept s (s.setCC v) ∧
    ControlKept s (s.setCC v)

/-- ADD, both forms, writes the sum modulo 2^16 and sets COND from it; nothing else changes (R73, R74). -/
def Obligations.AddWritesTheSum : Prop :=
  ∀ (dr sr1 sr2 : Reg) (ign : BitVec 2) (imm : BitVec 5) (s : State),
    (∃ t v, exec (.addReg dr sr1 ign sr2) s = .next t ∧ ResultWritten dr v s t ∧
      v.toNat = ((s.reg sr1).toNat + (s.reg sr2).toNat) % 65536) ∧
    (∃ t v, exec (.addImm dr sr1 imm) s = .next t ∧ ResultWritten dr v s t ∧
      (v.toNat : Int) = ((s.reg sr1).toNat + imm.toInt) % 65536)

/-- AND, both forms, writes the bitwise conjunction, a negative immediate having bits [15:5] set, and sets COND
from it; nothing else changes (R75, R76). -/
def Obligations.AndWritesTheConjunction : Prop :=
  ∀ (dr sr1 sr2 : Reg) (ign : BitVec 2) (imm : BitVec 5) (s : State),
    (∃ t v, exec (.andReg dr sr1 ign sr2) s = .next t ∧ ResultWritten dr v s t ∧
      ∀ k, v.getLsbD k = ((s.reg sr1).getLsbD k && (s.reg sr2).getLsbD k)) ∧
    (∃ t v, exec (.andImm dr sr1 imm) s = .next t ∧ ResultWritten dr v s t ∧
      ∀ k, k < 16 → v.getLsbD k = ((s.reg sr1).getLsbD k && imm.getLsbD (min k 4)))

/-- NOT writes the 16-bit complement and sets COND from it; nothing else changes (R77). -/
def Obligations.NotWritesTheComplement : Prop :=
  ∀ (dr sr : Reg) (ign : BitVec 6) (s : State),
    ∃ t v, exec (.notReg dr sr ign) s = .next t ∧ ResultWritten dr v s t ∧
      ∀ k, k < 16 → v.getLsbD k = !(s.reg sr).getLsbD k

/-- LEA writes the address and sets COND from it; it makes no memory access, so it polls at no address (R88). -/
def Obligations.LeaWritesTheAddress : Prop :=
  ∀ (dr : Reg) (off : BitVec 9) (s : State),
    ∃ t v, exec (.lea dr off) s = .next t ∧ ResultWritten dr v s t ∧
      (v.toNat : Int) = (s.pc.toNat + off.toInt) % 65536

/-! ### Memory and the keyboard -/

/-- The poll (R37): a byte found makes KBSR 0x8000 (D8) and KBDR the zero-extended byte (D18), and is consumed
(D9); no byte clears KBSR and leaves KBDR. Nothing else changes. -/
def Obligations.PollUpdatesTheKeyboardWords : Prop :=
  ∀ s : State, s.params.wf →
    (∀ b p, s.input.poll = (some b, p) → s.poll.rawRead s.params.kbsrAddr = 0x8000#16 ∧
      (s.poll.rawRead s.params.kbdrAddr).toNat = b.toNat ∧
      MemKept [s.params.kbsrAddr, s.params.kbdrAddr] s s.poll ∧ s.poll.input = p) ∧
    (∀ p, s.input.poll = (none, p) → s.poll.rawRead s.params.kbsrAddr = 0x0000#16 ∧
      MemKept [s.params.kbsrAddr] s s.poll ∧ s.poll.input = p) ∧
    RegsKept [] s s.poll ∧ s.poll.cond = s.cond ∧ s.poll.pc = s.pc ∧ s.poll.output = s.output ∧
    ControlKept s s.poll

/-- A read of the status address polls before the value is read; a read of any other address, KBDR_ADDR among
them, has no side effect (R36). -/
def Obligations.OnlyStatusReadsPoll : Prop :=
  ∀ (s : State) (a : Word),
    (a = s.params.kbsrAddr → s.memRead a = (s.poll.rawRead a, s.poll)) ∧
    (a ≠ s.params.kbsrAddr → s.memRead a = (s.rawRead a, s))

/-- A store is plain at every address; but what was stored to the status address is never read back by a load,
which reads 0x0000 or 0x8000 (R39). -/
def Obligations.StatusStoreIsNeverReadBack : Prop :=
  ∀ (s : State) (a v : Word), s.params.wf →
    Stored a v s (s.memWrite a v) ∧
    (a = s.params.kbsrAddr → ((s.memWrite a v).memRead a).1 = 0x0000#16 ∨
      ((s.memWrite a v).memRead a).1 = 0x8000#16) ∧
    (a ≠ s.params.kbsrAddr → ((s.memWrite a v).memRead a).1 = v)

/-- Polls and blocking reads take from one input stream (R9, R10, R37; decisions D9, D16).

The host's answer is the first one listed, which is then gone, or, when none is listed, the next free one (log 6).
A poll finds a byte exactly when the answer is yes and a blocking read of the stream would deliver one; the byte it
finds is that one, and is then gone. So with bytes listed a yes delivers the first of them, and a no delivers none
and leaves them all; at the end of the stream neither a read nor a poll delivers one; and when no byte is listed
and the stream has not ended (the port after reset among these), both deliver the same next free byte and count it
on the same counter. No poll changes whether the stream ends. -/
def Obligations.InputIsOneStream : Prop :=
  ∀ p : InputPort,
    (∀ a r, p.answers = a :: r → p.draw = (a, { p with answers := r })) ∧
    (p.answers = [] → p.draw = (Config.hostReady p.answerDraws, { p with answerDraws := p.answerDraws + 1 })) ∧
    (∀ q, p.draw = (false, q) → p.poll = (none, q)) ∧
    (∀ q, p.draw = (true, q) → q.take = none → p.poll = (none, q)) ∧
    (∀ q b q', p.draw = (true, q) → q.take = some (b, q') → p.poll = (some b, q')) ∧
    (∀ r b bs, p.answers = true :: r → p.bytes = b :: bs →
      p.poll = (some b, { p with bytes := bs, answers := r })) ∧
    (∀ r, p.answers = false :: r → p.poll = (none, { p with answers := r })) ∧
    (∀ b bs, p.bytes = b :: bs → p.take = some (b, { p with bytes := bs }) ∧
      ∀ c q, p.poll = (some c, q) → c = b ∧ q.bytes = bs) ∧
    (p.bytes = [] → p.ended = true → p.take = none ∧ p.poll.1 = none) ∧
    (p.bytes = [] → p.ended = false → ∃ b, p.take = some (b, { p with byteDraws := p.byteDraws + 1 }) ∧
      (∀ r, p.answers = true :: r →
        p.poll = (some b, { p with answers := r, byteDraws := p.byteDraws + 1 })) ∧
      ∀ c q, p.poll = (some c, q) → c = b ∧ q.bytes = [] ∧ q.byteDraws = p.byteDraws + 1) ∧
    (∀ q, p.poll = (none, q) → q.bytes = p.bytes ∧ q.byteDraws = p.byteDraws) ∧
    p.poll.2.ended = p.ended

/-- The canonical form makes equal memories equal data: two memories that read the same everywhere are the same
list (the model's convention, log 3). -/
def Obligations.EqualReadingsMakeEqualMemories : Prop :=
  ∀ m n : Memory, m.wf → n.wf → (∀ a, m.read a = n.read a) → m = n

/-! ### Loads and stores -/

/-- LD and LDR load the word at their address, through a read that polls at KBSR_ADDR, and set COND from it;
nothing else changes, and away from KBSR_ADDR no memory and no input. LDR's address is the base register plus the
signed offset, modulo 2^16 (R85, R87). -/
def Obligations.LdAndLdrLoadTheWord : Prop :=
  ∀ (dr base : Reg) (off9 : BitVec 9) (off6 : BitVec 6) (s : State),
    ((pcRel9 s off9).toNat : Int) = (s.pc.toNat + off9.toInt) % 65536 ∧
    ((baseOff6 s base off6).toNat : Int) = ((s.reg base).toNat + off6.toInt) % 65536 ∧
    (∃ t, exec (.ld dr off9) s = .next t ∧ Loaded dr (pcRel9 s off9) s t ∧
      (pcRel9 s off9 ≠ s.params.kbsrAddr → ResultWritten dr (s.rawRead (pcRel9 s off9)) s t)) ∧
    (∃ t, exec (.ldr dr base off6) s = .next t ∧ Loaded dr (baseOff6 s base off6) s t ∧
      (baseOff6 s base off6 ≠ s.params.kbsrAddr → ResultWritten dr (s.rawRead (baseOff6 s base off6)) s t))

/-- LDI reads the pointer, then the word it points to, each read polling at KBSR_ADDR (that the pointer read does
is the spec's decision D10, R41), and sets COND from the word; with neither read at KBSR_ADDR nothing else changes
(R86). -/
def Obligations.LdiLoadsThroughThePointer : Prop :=
  ∀ (dr : Reg) (off : BitVec 9) (s : State),
    ∃ t, exec (.ldi dr off) s = .next t ∧
      Loaded dr (s.memRead (pcRel9 s off)).1 (s.memRead (pcRel9 s off)).2 t ∧ RegsKept [dr] s t ∧
      (pcRel9 s off ≠ s.params.kbsrAddr → s.rawRead (pcRel9 s off) ≠ s.params.kbsrAddr →
        ResultWritten dr (s.rawRead (s.rawRead (pcRel9 s off))) s t)

/-- An indirect access whose pointer is at KBSR_ADDR goes to address 0x0000 or 0x8000 (R48). -/
def Obligations.PointerAtStatusGoesToTwoAddresses : Prop :=
  ∀ (s : State) (off : BitVec 9), s.params.wf → pcRel9 s off = s.params.kbsrAddr →
    (indirect9 s off).1 = 0x0000#16 ∨ (indirect9 s off).1 = 0x8000#16

/-- ST and STR store the register's word at their address, the keyboard words included, and change nothing else.
STR's address is the base register plus the signed offset, modulo 2^16 (R89, R91). -/
def Obligations.StAndStrStoreTheRegister : Prop :=
  ∀ (sr base : Reg) (off9 : BitVec 9) (off6 : BitVec 6) (s : State),
    ((pcRel9 s off9).toNat : Int) = (s.pc.toNat + off9.toInt) % 65536 ∧
    ((baseOff6 s base off6).toNat : Int) = ((s.reg base).toNat + off6.toInt) % 65536 ∧
    (∃ t, exec (.st sr off9) s = .next t ∧ Stored (pcRel9 s off9) (s.reg sr) s t) ∧
    (∃ t, exec (.str sr base off6) s = .next t ∧ Stored (baseOff6 s base off6) (s.reg sr) s t)

/-- STI reads the pointer, polling at KBSR_ADDR, and stores the register's word where it points; away from
KBSR_ADDR nothing else changes (R90). -/
def Obligations.StiStoresThroughThePointer : Prop :=
  ∀ (sr : Reg) (off : BitVec 9) (s : State),
    ∃ t, exec (.sti sr off) s = .next t ∧
      Stored (s.memRead (pcRel9 s off)).1 (s.reg sr) (s.memRead (pcRel9 s off)).2 t ∧ RegsKept [] s t ∧
      (pcRel9 s off ≠ s.params.kbsrAddr → Stored (s.rawRead (pcRel9 s off)) (s.reg sr) s t)

/-! ### Control transfers -/

/-- BR adds its offset to the pc exactly when the condition bit of the current flag is set (n is bit 2, z bit 1,
p bit 0, decision D5), and changes nothing else (R79). -/
def Obligations.BrBranchesOnTheFlag : Prop :=
  ∀ (nzp : BitVec 3) (off : BitVec 9) (s : State),
    ∃ t, exec (.br nzp off) s = .next t ∧
      Jumped (if (s.cond = .neg ∧ nzp.getLsbD 2 = true) ∨ (s.cond = .zero ∧ nzp.getLsbD 1 = true) ∨
        (s.cond = .pos ∧ nzp.getLsbD 0 = true) then pcRel9 s off else s.pc) s t

/-- The word 0x0000 is a BR that is never taken, and a BR with all three bits is always taken (R66, R79). -/
def Obligations.ZeroWordIsANoOp : Prop :=
  ∀ (off : BitVec 9) (s : State),
    exec (decode 0x0000#16) s = .next s ∧ exec (.br 0b000#3 off) s = .next s ∧
    exec (.br 0b111#3 off) s = .next (s.setPc (pcRel9 s off))

/-- JMP and RET set the pc to a register, any value of it, and change nothing else (R80). -/
def Obligations.JmpGoesToTheRegister : Prop :=
  ∀ (ignHi : BitVec 3) (base : Reg) (ignLo : BitVec 6) (s : State),
    (∃ t, exec (.jmp ignHi base ignLo) s = .next t ∧ Jumped (s.reg base) s t) ∧
    (∃ t, exec .ret s = .next t ∧ Jumped (s.reg 7) s t)

/-- JSR puts the return address in R7 and adds its offset to the pc; COND is left alone unless the parameter
LINK_SETS_CC (decision D12) has the link set it; nothing else changes (R81). -/
def Obligations.JsrLinksAndGoes : Prop :=
  ∀ (off : BitVec 11) (s : State),
    ∃ t, exec (.jsr off) s = .next t ∧ t.reg 7 = s.pc ∧
      (t.pc.toNat : Int) = (s.pc.toNat + off.toInt) % 65536 ∧
      t.cond = (if s.params.linkSetsCc then condOf s.pc else s.cond) ∧ RegsKept [7] s t ∧ MemKept [] s t ∧
      StreamsKept s t ∧ ControlKept s t

/-- JSRR puts the return address in R7 and goes to the base register, R7 being read after the link at the spec's
default of JSRR_BASE_READ and before it at the other (decision D26); COND is left alone (D12) and nothing else
changes (R82). -/
def Obligations.JsrrLinksAndGoes : Prop :=
  ∀ (ignHi : BitVec 2) (base : Reg) (ignLo : BitVec 6) (s : State),
    ∃ t, exec (.jsrr ignHi base ignLo) s = .next t ∧ t.reg 7 = s.pc ∧
      t.pc = (if base = 7 ∧ s.params.jsrrBaseRead = .afterLink then s.pc else s.reg base) ∧
      t.cond = (if s.params.linkSetsCc then condOf s.pc else s.cond) ∧ RegsKept [7] s t ∧ MemKept [] s t ∧
      StreamsKept s t ∧ ControlKept s t

/-! ### TRAP and the trap-service unit -/

/-- An unknown trap vector changes nothing: no register, flag, memory, output or run-state change (R99; R7 as
decision D14 says). -/
def Obligations.UnknownVectorIsANoOp : Prop :=
  ∀ (ign : BitVec 4) (vect : BitVec 8) (s : State), vect.toNat < 0x20 ∨ 0x25 < vect.toNat →
    ∃ t, exec (.trap ign vect) s = .next t ∧ t.pc = s.pc ∧ t.cond = s.cond ∧ RegsKeptByTrap [] s t ∧
      MemKept [] s t ∧ StreamsKept s t ∧ ControlKept s t

/-- GETC with a byte to read puts it, zero-extended (D18), in R0, echoes nothing, and sets COND from R0 (decision
D13); memory, KBSR and KBDR included (D9), is the same (R93). -/
def Obligations.GetcReadsOneByte : Prop :=
  ∀ (ign : BitVec 4) (s : State) (b : Byte) (p : InputPort), s.input.take = some (b, p) →
      ∃ t, exec (.getc ign) s = .next t ∧ (t.reg 0).toNat = b.toNat ∧
        t.cond = (if s.params.trapInSetsCc then if b = 0 then .zero else .pos else s.cond) ∧ t.pc = s.pc ∧
        RegsKeptByTrap [0] s t ∧ MemKept [] s t ∧
        t.input = p ∧ t.output = s.output ∧ ControlKept s t

/-- IN with a byte to read writes the prompt, then echoes the byte, puts it in R0 and sets COND from R0 (R96;
decisions D13, D18). -/
def Obligations.InPromptsEchoesAndReads : Prop :=
  ∀ (ign : BitVec 4) (s : State) (b : Byte) (p : InputPort), s.input.take = some (b, p) →
      ∃ t, exec (.inChar ign) s = .next t ∧ (t.reg 0).toNat = b.toNat ∧
        t.cond = (if s.params.trapInSetsCc then if b = 0 then .zero else .pos else s.cond) ∧ t.pc = s.pc ∧
        RegsKeptByTrap [0] s t ∧ MemKept [] s t ∧
        t.input = p ∧ t.output = s.output ++ s.params.inPrompt ++ [b] ∧ ControlKept s t

/-- GETC and IN at the end of input are stuck, IN after its prompt is written (R100, decision D15). -/
def Obligations.ReadsAreStuckAtTheEndOfInput : Prop :=
  ∀ (ign : BitVec 4) (s : State), s.input.bytes = [] → s.input.ended = true →
    exec (.getc ign) s = .fault (.inputEnded s.output) ∧
    exec (.inChar ign) s = .fault (.inputEnded (s.output ++ s.params.inPrompt))

/-- OUT writes the low byte of R0 and changes nothing else (R94; R7 as decision D14 says). -/
def Obligations.OutWritesTheLowByte : Prop :=
  ∀ (ign : BitVec 4) (s : State),
    ∃ t b, exec (.out ign) s = .next t ∧ b.toNat = (s.reg 0).toNat % 256 ∧ t.output = s.output ++ [b] ∧
      t.input = s.input ∧ t.cond = s.cond ∧ t.pc = s.pc ∧ RegsKeptByTrap [] s t ∧ MemKept [] s t ∧
      ControlKept s t

/-- PUTS on a string that ends below 0xFFFF or at it and does not reach KBSR_ADDR writes the low byte of each of
its words, a zero low byte among them, and changes nothing else (R95; R7 as decision D14 says). -/
def Obligations.PutsWritesTheString : Prop :=
  ∀ (ign : BitVec 4) (s : State) (n : Nat), StringAt s (s.reg 0) n →
    ∃ t bs, exec (.puts ign) s = .next t ∧ t.output = s.output ++ bs ∧ bs.length = n ∧
      (∀ k b, bs[k]? = some b → b.toNat = (s.rawRead (s.reg 0 + BitVec.ofNat 16 k)).toNat % 256) ∧
      t.input = s.input ∧ t.cond = s.cond ∧ t.pc = s.pc ∧ RegsKeptByTrap [] s t ∧ MemKept [] s t ∧
      ControlKept s t

/-- PUTSP on such a string writes, word by word, the low byte and then the high byte if it is not zero (the low
byte always, decision D30), and changes nothing else (R97; R7 as decision D14 says). -/
def Obligations.PutspWritesThePackedString : Prop :=
  ∀ (ign : BitVec 4) (s : State) (n : Nat), StringAt s (s.reg 0) n →
    ∃ t, exec (.putsp ign) s = .next t ∧
      (t.output.drop s.output.length).map BitVec.toNat =
        (List.range n).flatMap (fun k =>
          let c := (s.rawRead (s.reg 0 + BitVec.ofNat 16 k)).toNat
          if c / 256 = 0 then [c % 256] else [c % 256, c / 256]) ∧
      t.output.take s.output.length = s.output ∧
      t.input = s.input ∧ t.cond = s.cond ∧ t.pc = s.pc ∧ RegsKeptByTrap [] s t ∧ MemKept [] s t ∧
      ControlKept s t

/-- A string of non-zero words that runs on to KBSR_ADDR, or to 0xFFFF, ends PUTS and PUTSP in the model-only
fault of R107 (decision D11). Every word before KBSR_ADDR, or every word up to 0xFFFF, that one included, has then
been written as R95 and R97 say (PUTSP's low byte always, decision D30), and nothing else has been. The fault
records what R106 says, the TRAP's word being 0xF022 or 0xF024 with its ignored bits. -/
def Obligations.StringFaultsAreRaised : Prop :=
  ∀ (ign : BitVec 4) (s : State) (n : Nat), (s.reg 0).toNat + n < 65536 →
    (∀ k, k < n → s.reg 0 + BitVec.ofNat 16 k ≠ s.params.kbsrAddr ∧
      s.rawRead (s.reg 0 + BitVec.ofNat 16 k) ≠ 0x0000#16) →
    (s.reg 0 + BitVec.ofNat 16 n = s.params.kbsrAddr →
      (∃ t, exec (.puts ign) s = .next t ∧ BytesWritten ((wordsAt s (s.reg 0) n).map (· % 256)) s t ∧
        t.run = .faulted ⟨.stringThroughDevice, 0xF022#16 ||| (ign.setWidth 16 <<< 8), s.params.kbsrAddr⟩) ∧
      (∃ t, exec (.putsp ign) s = .next t ∧ BytesWritten ((wordsAt s (s.reg 0) n).flatMap packedBytes) s t ∧
        t.run = .faulted ⟨.stringThroughDevice, 0xF024#16 ||| (ign.setWidth 16 <<< 8), s.params.kbsrAddr⟩)) ∧
    ((s.reg 0).toNat + n = 65535 → 0xFFFF#16 ≠ s.params.kbsrAddr → s.rawRead 0xFFFF#16 ≠ 0x0000#16 →
      (∃ t, exec (.puts ign) s = .next t ∧ BytesWritten ((wordsAt s (s.reg 0) (n + 1)).map (· % 256)) s t ∧
        t.run = .faulted ⟨.stringOverrun, 0xF022#16 ||| (ign.setWidth 16 <<< 8), 0xFFFF#16⟩) ∧
      (∃ t, exec (.putsp ign) s = .next t ∧ BytesWritten ((wordsAt s (s.reg 0) (n + 1)).flatMap packedBytes) s t ∧
        t.run = .faulted ⟨.stringOverrun, 0xF024#16 ||| (ign.setWidth 16 <<< 8), 0xFFFF#16⟩))

/-- HALT writes the shutdown message and stops; the registers, COND and memory are unchanged (R98; R7 as
decision D14 says). -/
def Obligations.HaltWritesTheMessageAndStops : Prop :=
  ∀ (ign : BitVec 4) (s : State),
    ∃ t, exec (.halt ign) s = .next t ∧ t.run = .halted ∧ t.output = s.output ++ s.params.haltMessage ∧
      t.input = s.input ∧ t.cond = s.cond ∧ t.pc = s.pc ∧ t.params = s.params ∧ RegsKeptByTrap [] s t ∧
      MemKept [] s t

/-- No TRAP writes the pc, nor (decision D14) R7, in a run that goes on or halts (R92). -/
def Obligations.TrapWritesNeitherPcNorR7 : Prop :=
  ∀ (i : Instr) (s t : State), trapVector i ≠ none → s.run = .running → exec i s = .next t →
    t.isFaulted = false → t.pc = s.pc ∧ (s.params.trapLinksR7 = false → t.reg 7 = s.reg 7)

/-! ### Reserved opcodes -/

/-- A reserved opcode always raises the undefined-opcode fault: the run ends FAULTED with the word and its
address, nothing is written to the output, and no further step is taken (R102, R103). The number 1000 is the
spec's decision D1 (log 5), the fault as a next state FAULTED is D21 (log 8), and `step t = .next t` for a core
that takes no step is the model's choice (log 9). -/
def Obligations.ReservedOpcodesFault : Prop :=
  ∀ (ign : BitVec 12) (s : State),
    (∃ t, exec (.reserved1000 ign) s = .next t ∧ step t = .next t ∧ t.output = s.output ∧
      ∃ w, t.run = .faulted ⟨.undefinedOpcode, w, s.pc - 1#16⟩ ∧ w.toNat = 0x8000 + ign.toNat) ∧
    (∃ t, exec (.res ign) s = .next t ∧ step t = .next t ∧ t.output = s.output ∧
      ∃ w, t.run = .faulted ⟨.undefinedOpcode, w, s.pc - 1#16⟩ ∧ w.toNat = 0xD000 + ign.toNat)

/-! ### The step -/

/-- One step of a running core: the word at the pc is read, with the poll if the pc is KBSR_ADDR, the pc moves
past it modulo 2^16, and the instruction the word decodes to executes (R68). -/
def Obligations.StepRunsTheDecodedInstruction : Prop :=
  ∀ (s : State) (i : Instr), s.run = .running →
    (s.pc ≠ s.params.kbsrAddr → decode (s.rawRead s.pc) = i → step s = exec i (s.setPc (s.pc + 1#16))) ∧
    (s.pc = s.params.kbsrAddr → decode (s.poll.rawRead s.pc) = i → step s = exec i (s.poll.setPc (s.pc + 1#16)))

/-- A core that is HALTED or FAULTED takes no step and changes nothing (R69). That `step` answers the unchanged
state where the spec says that no step is taken is the model's choice (log 9). -/
def Obligations.StoppedCoreTakesNoStep : Prop :=
  ∀ (s : State) (info : FaultInfo), s.run = .halted ∨ s.run = .faulted info → step s = .next s

/-- A step that fetches from KBSR_ADDR: a byte found makes the fetched word 0x8000, which faults after the byte
is consumed; none makes it 0x0000, a BR that is never taken (R109). -/
def Obligations.FetchFromStatusPolls : Prop :=
  ∀ s : State, s.params.wf → s.run = .running → s.pc = s.params.kbsrAddr →
    (∀ b p, s.input.poll = (some b, p) → ∃ t, step s = .next t ∧ t.input = p ∧
      t.run = .faulted ⟨.undefinedOpcode, 0x8000#16, s.params.kbsrAddr⟩) ∧
    (∀ p, s.input.poll = (none, p) → ∃ t, step s = .next t ∧ t.input = p ∧ t.run = .running ∧
      t.pc = s.pc + 1#16 ∧ RegsKept [] s t ∧ t.cond = s.cond ∧ MemKept [s.params.kbsrAddr] s t)

/-- A store into the next instruction's word, by ST, STI or STR, is seen by the next fetch: the step after it
executes the word stored, unless that fetch is from KBSR_ADDR, whose word it polls (R51, decision D25). -/
def Obligations.StoreIsSeenByTheNextFetch : Prop :=
  ∀ (i : Instr) (sr : Reg) (s : State), s.run = .running → s.pc ≠ s.params.kbsrAddr →
    storeSource i = some sr → storeAddr i s = some s.pc →
    ∃ t, exec i s = .next t ∧ t.pc = s.pc ∧ step t = exec (decode (s.reg sr)) (t.setPc (t.pc + 1#16))

/-- The word placed by `withFetchWord` is the one the next step fetches and executes (the host's interface,
log 10). -/
def Obligations.PlacedWordIsFetchedNext : Prop :=
  ∀ (s : State) (w : Nat), w < 65536 →
    decodeTableWord 16 w = some (decode (BitVec.ofNat 16 w)) ∧
    step (s.withFetchWord 16 w) = exec (decode (BitVec.ofNat 16 w))
      ((s.withFetchWord 16 w).setPc ((s.withFetchWord 16 w).pc + 1#16))

/-! ### Rules about the whole machine -/

/-- The invariant is kept by every step: memory stays in its canonical form (the shape of the list, not what any
word of a FAULTED machine holds) and the keyboard addresses stay as R8 requires. -/
def Obligations.EveryStepKeepsTheInvariant : Prop :=
  ∀ s t : State, s.inv → step s = .next t → t.inv

/-- No step changes the machine's parameters (R7). -/
def Obligations.NoStepChangesTheParameters : Prop :=
  ∀ s t : State, step s = .next t → t.params = s.params

/-- The run-state machine (R104): a completed step of a running core ends HALTED exactly for TRAP HALT, FAULTED
with the undefined-opcode cause exactly for a reserved opcode and otherwise only for PUTS and PUTSP with a
model-only cause, and else it is RUNNING. -/
def Obligations.RunStateFollowsItsTable : Prop :=
  ∀ s t : State, s.run = .running → step s = .next t →
    (t.run = .halted ↔ trapVector (decode s.fetch.1) = some 0x25#8) ∧
    (isReserved (decode s.fetch.1) = true ↔
      t.run = .faulted ⟨.undefinedOpcode, s.fetch.1, s.pc⟩) ∧
    (∀ info, t.run = .faulted info → isReserved (decode s.fetch.1) = false →
      (trapVector (decode s.fetch.1) = some 0x22#8 ∨ trapVector (decode s.fetch.1) = some 0x24#8) ∧
      (info.cause = .stringOverrun ∨ info.cause = .stringThroughDevice) ∧ info.word = s.fetch.1)

/-- The only step that does not complete is GETC's or IN's when the input has ended, and no step is refused
(R100, R104; decision D15). -/
def Obligations.OnlyEndedInputIsStuck : Prop :=
  ∀ s : State, (∃ t, step s = .next t) ∨
    (s.run = .running ∧ (∃ out, step s = .fault (.inputEnded out)) ∧
      (trapVector (decode s.fetch.1) = some 0x20#8 ∨ trapVector (decode s.fetch.1) = some 0x23#8) ∧
      s.fetch.2.input.bytes = [] ∧ s.fetch.2.input.ended = true)

/-- No instruction writes a general register but the one R20's table names, in a run that goes on or halts (R20;
TRAP's R7 as decision D14 says). -/
def Obligations.OnlyTheNamedRegisterIsWritten : Prop :=
  ∀ (i : Instr) (s t : State), s.params.trapLinksR7 = false → exec i s = .next t → t.isFaulted = false →
    ∀ r, writtenReg i ≠ some r → t.reg r = s.reg r

/-- No instruction changes COND but those R26 names (the link of JSR and JSRR under decision D12), and those set
it from the register they write (GETC and IN under decision D13). -/
def Obligations.OnlyTheNamedInstructionsSetCond : Prop :=
  ∀ (i : Instr) (s t : State), s.params.asDecided → exec i s = .next t → t.isFaulted = false →
    (setsCond i = false → t.cond = s.cond) ∧
    (∀ r, setsCond i = true → writtenReg i = some r → t.cond = condOf (t.reg r))

/-- An instruction changes no word of memory but the one it stores to and, if one of its reads is of KBSR_ADDR,
the two keyboard words (R33, R39, R44). -/
def Obligations.MemoryChangesOnlyByStoresAndPolls : Prop :=
  ∀ (i : Instr) (s t : State), exec i s = .next t → t.isFaulted = false →
    ∀ a, storeAddr i s ≠ some a →
      (polls i s → a ≠ s.params.kbsrAddr ∧ a ≠ s.params.kbdrAddr) → t.rawRead a = s.rawRead a

/-- No instruction but the control transfers changes the incremented pc (R23). -/
def Obligations.OnlyControlTransfersChangeThePc : Prop :=
  ∀ (i : Instr) (s t : State), exec i s = .next t → t.isFaulted = false → transfersControl i = false →
    t.pc = s.pc

/-- The input stream is touched only by GETC, IN and a read of KBSR_ADDR (R9, R44). -/
def Obligations.OnlyPollsAndReadsTakeInput : Prop :=
  ∀ (i : Instr) (s t : State), exec i s = .next t → ¬ polls i s →
    trapVector i ≠ some 0x20#8 → trapVector i ≠ some 0x23#8 → t.input = s.input

/-- Output is only ever appended to, and only by the trap-service unit (R101). -/
def Obligations.OnlyTrapsAppendOutput : Prop :=
  ∀ s t : State, step s = .next t → ∃ bs, t.output = s.output ++ bs ∧
    (bs ≠ [] → s.run = .running ∧ ∃ v, trapVector (decode s.fetch.1) = some v ∧
      0x21 ≤ v.toNat ∧ v.toNat ≤ 0x25)
end

