-- ==== Sys2Proof/Laws/Decode.lean ====
section
/-! SUPPORT. Reading a field of a word that is put together from fields. -/

namespace Sys2Proof

@[simp] theorem ofBits_toBits (r : Reg) : Reg.ofBits r.toBits = r := rfl
@[simp] theorem toBits_ofBits (b : BitVec 3) : (Reg.ofBits b).toBits = b := rfl

@[simp] theorem field_or (x y : Word) (lo k : Nat) : field (x ||| y) lo k = field x lo k ||| field y lo k := by
  apply BitVec.eq_of_getLsbD_eq
  intro i hi
  simp [field, hi]

/-- The field at the place where it was put is the value. -/
theorem field_put_self {n : Nat} (v : BitVec n) (lo : Nat) (h : lo + n ≤ 16) : field (put v lo) lo n = v := by
  apply BitVec.eq_of_getLsbD_eq
  intro i hi
  have h3 : lo + i < 16 := by omega
  simp [field, put, hi, h3]

/-- A field that lies above a value that was put does not see it. -/
theorem field_put_above {n : Nat} (v : BitVec n) (pos lo k : Nat) (h : pos + n ≤ lo) :
    field (put v pos) lo k = 0#k := by
  apply BitVec.eq_of_getLsbD_eq
  intro i hi
  have h2 : n ≤ lo + i - pos := by omega
  simp only [field, put, BitVec.getLsbD_extractLsb', BitVec.getLsbD_shiftLeft, BitVec.getLsbD_setWidth,
    BitVec.getLsbD_of_ge v _ h2, BitVec.getLsbD_zero, Bool.and_false]

/-- A field that lies below a value that was put does not see it. -/
theorem field_put_below {n : Nat} (v : BitVec n) (pos lo k : Nat) (h : lo + k ≤ pos) :
    field (put v pos) lo k = 0#k := by
  apply BitVec.eq_of_getLsbD_eq
  intro i hi
  have h3 : lo + i < pos := by omega
  simp [field, put, h3]

end Sys2Proof
end

