-- ==== Sys2Proof/Laws/State.lean ====
section
/-! SUPPORT. One lemma per field per update of the state. -/

namespace Sys2Proof.Machine

theorem reg_setReg (s : State) (r q : Reg) (v : Word) :
    (s.setReg r v).reg q = if q = r then v else s.reg q := by
  simp only [State.reg, State.setReg, Fin.getElem_fin, Vector.getElem_set, Fin.ext_iff]
  split <;> split <;> first | rfl | omega

@[simp] theorem reg_setReg_self (s : State) (r : Reg) (v : Word) : (s.setReg r v).reg r = v := by
  simp [reg_setReg]

theorem reg_setReg_ne (s : State) {r q : Reg} (v : Word) (h : q ≠ r) : (s.setReg r v).reg q = s.reg q := by
  simp [reg_setReg, h]

section setReg
variable (s : State) (r : Reg) (v : Word)
@[simp] theorem setReg_pc : (s.setReg r v).pc = s.pc := rfl
@[simp] theorem setReg_cond : (s.setReg r v).cond = s.cond := rfl
@[simp] theorem setReg_run : (s.setReg r v).run = s.run := rfl
@[simp] theorem setReg_mem : (s.setReg r v).mem = s.mem := rfl
@[simp] theorem setReg_input : (s.setReg r v).input = s.input := rfl
@[simp] theorem setReg_output : (s.setReg r v).output = s.output := rfl
@[simp] theorem setReg_params : (s.setReg r v).params = s.params := rfl
@[simp] theorem setReg_rawRead (a : Word) : (s.setReg r v).rawRead a = s.rawRead a := rfl
end setReg

section setPc
variable (s : State) (t : Word)
@[simp] theorem setPc_pc : (s.setPc t).pc = t := rfl
@[simp] theorem setPc_reg (q : Reg) : (s.setPc t).reg q = s.reg q := rfl
@[simp] theorem setPc_cond : (s.setPc t).cond = s.cond := rfl
@[simp] theorem setPc_run : (s.setPc t).run = s.run := rfl
@[simp] theorem setPc_mem : (s.setPc t).mem = s.mem := rfl
@[simp] theorem setPc_input : (s.setPc t).input = s.input := rfl
@[simp] theorem setPc_output : (s.setPc t).output = s.output := rfl
@[simp] theorem setPc_params : (s.setPc t).params = s.params := rfl
@[simp] theorem setPc_rawRead (a : Word) : (s.setPc t).rawRead a = s.rawRead a := rfl
end setPc

section setCC
variable (s : State) (v : Word)
@[simp] theorem setCC_cond : (s.setCC v).cond = condOf v := rfl
@[simp] theorem setCC_reg (q : Reg) : (s.setCC v).reg q = s.reg q := rfl
@[simp] theorem setCC_pc : (s.setCC v).pc = s.pc := rfl
@[simp] theorem setCC_run : (s.setCC v).run = s.run := rfl
@[simp] theorem setCC_mem : (s.setCC v).mem = s.mem := rfl
@[simp] theorem setCC_input : (s.setCC v).input = s.input := rfl
@[simp] theorem setCC_output : (s.setCC v).output = s.output := rfl
@[simp] theorem setCC_params : (s.setCC v).params = s.params := rfl
@[simp] theorem setCC_rawRead (a : Word) : (s.setCC v).rawRead a = s.rawRead a := rfl
end setCC

section writeResult
variable (s : State) (r : Reg) (v : Word)
theorem writeResult_reg (q : Reg) : (s.writeResult r v).reg q = if q = r then v else s.reg q :=
  reg_setReg s r q v
@[simp] theorem writeResult_reg_self : (s.writeResult r v).reg r = v := reg_setReg_self s r v
@[simp] theorem writeResult_cond : (s.writeResult r v).cond = condOf v := rfl
@[simp] theorem writeResult_pc : (s.writeResult r v).pc = s.pc := rfl
@[simp] theorem writeResult_run : (s.writeResult r v).run = s.run := rfl
@[simp] theorem writeResult_mem : (s.writeResult r v).mem = s.mem := rfl
@[simp] theorem writeResult_input : (s.writeResult r v).input = s.input := rfl
@[simp] theorem writeResult_output : (s.writeResult r v).output = s.output := rfl
@[simp] theorem writeResult_params : (s.writeResult r v).params = s.params := rfl
@[simp] theorem writeResult_rawRead (a : Word) : (s.writeResult r v).rawRead a = s.rawRead a := rfl
end writeResult

section memWrite
variable (s : State) (a v : Word)
@[simp] theorem memWrite_reg (q : Reg) : (s.memWrite a v).reg q = s.reg q := rfl
@[simp] theorem memWrite_pc : (s.memWrite a v).pc = s.pc := rfl
@[simp] theorem memWrite_cond : (s.memWrite a v).cond = s.cond := rfl
@[simp] theorem memWrite_run : (s.memWrite a v).run = s.run := rfl
@[simp] theorem memWrite_mem : (s.memWrite a v).mem = s.mem.write a.toNat v := rfl
@[simp] theorem memWrite_input : (s.memWrite a v).input = s.input := rfl
@[simp] theorem memWrite_output : (s.memWrite a v).output = s.output := rfl
@[simp] theorem memWrite_params : (s.memWrite a v).params = s.params := rfl
end memWrite

section outBytes
variable (s : State) (bs : List Byte)
@[simp] theorem outBytes_output : (s.outBytes bs).output = s.output ++ bs := rfl
@[simp] theorem outBytes_reg (q : Reg) : (s.outBytes bs).reg q = s.reg q := rfl
@[simp] theorem outBytes_pc : (s.outBytes bs).pc = s.pc := rfl
@[simp] theorem outBytes_cond : (s.outBytes bs).cond = s.cond := rfl
@[simp] theorem outBytes_run : (s.outBytes bs).run = s.run := rfl
@[simp] theorem outBytes_mem : (s.outBytes bs).mem = s.mem := rfl
@[simp] theorem outBytes_input : (s.outBytes bs).input = s.input := rfl
@[simp] theorem outBytes_params : (s.outBytes bs).params = s.params := rfl
@[simp] theorem outBytes_rawRead (a : Word) : (s.outBytes bs).rawRead a = s.rawRead a := rfl
@[simp] theorem flush_eq : s.flush = s := rfl
end outBytes

section runState
variable (s : State) (info : FaultInfo)
@[simp] theorem raiseFault_run : (s.raiseFault info).run = .faulted info := rfl
@[simp] theorem raiseFault_reg (q : Reg) : (s.raiseFault info).reg q = s.reg q := rfl
@[simp] theorem raiseFault_pc : (s.raiseFault info).pc = s.pc := rfl
@[simp] theorem raiseFault_cond : (s.raiseFault info).cond = s.cond := rfl
@[simp] theorem raiseFault_mem : (s.raiseFault info).mem = s.mem := rfl
@[simp] theorem raiseFault_input : (s.raiseFault info).input = s.input := rfl
@[simp] theorem raiseFault_output : (s.raiseFault info).output = s.output := rfl
@[simp] theorem raiseFault_params : (s.raiseFault info).params = s.params := rfl
@[simp] theorem halt_run : s.halt.run = .halted := rfl
@[simp] theorem halt_reg (q : Reg) : s.halt.reg q = s.reg q := rfl
@[simp] theorem halt_pc : s.halt.pc = s.pc := rfl
@[simp] theorem halt_cond : s.halt.cond = s.cond := rfl
@[simp] theorem halt_mem : s.halt.mem = s.mem := rfl
@[simp] theorem halt_input : s.halt.input = s.input := rfl
@[simp] theorem halt_output : s.halt.output = s.output := rfl
@[simp] theorem halt_params : s.halt.params = s.params := rfl
@[simp] theorem halt_rawRead (a : Word) : s.halt.rawRead a = s.rawRead a := rfl
end runState

section link
variable (s : State)
theorem link_reg (q : Reg) : s.link.reg q = if q = 7 then s.pc else s.reg q := by
  unfold State.link; split <;> simp [writeResult_reg, reg_setReg]
theorem link_cond : s.link.cond = if s.params.linkSetsCc then condOf s.pc else s.cond := by
  unfold State.link; split <;> rfl
@[simp] theorem link_pc : s.link.pc = s.pc := by unfold State.link; split <;> rfl
@[simp] theorem link_run : s.link.run = s.run := by unfold State.link; split <;> rfl
@[simp] theorem link_mem : s.link.mem = s.mem := by unfold State.link; split <;> rfl
@[simp] theorem link_input : s.link.input = s.input := by unfold State.link; split <;> rfl
@[simp] theorem link_output : s.link.output = s.output := by unfold State.link; split <;> rfl
@[simp] theorem link_params : s.link.params = s.params := by unfold State.link; split <;> rfl
end link

section trapEntry
variable (s : State)
theorem trapEntry_eq (h : s.params.trapLinksR7 = false) : s.trapEntry = s := by simp [State.trapEntry, h]
theorem trapEntry_reg (q : Reg) :
    s.trapEntry.reg q = if s.params.trapLinksR7 = true ∧ q = 7 then s.pc else s.reg q := by
  unfold State.trapEntry; split <;> simp_all [reg_setReg]
@[simp] theorem trapEntry_reg0 : s.trapEntry.reg 0 = s.reg 0 := by simp [trapEntry_reg]
@[simp] theorem trapEntry_pc : s.trapEntry.pc = s.pc := by unfold State.trapEntry; split <;> rfl
@[simp] theorem trapEntry_cond : s.trapEntry.cond = s.cond := by unfold State.trapEntry; split <;> rfl
@[simp] theorem trapEntry_run : s.trapEntry.run = s.run := by unfold State.trapEntry; split <;> rfl
@[simp] theorem trapEntry_mem : s.trapEntry.mem = s.mem := by unfold State.trapEntry; split <;> rfl
@[simp] theorem trapEntry_input : s.trapEntry.input = s.input := by unfold State.trapEntry; split <;> rfl
@[simp] theorem trapEntry_output : s.trapEntry.output = s.output := by unfold State.trapEntry; split <;> rfl
@[simp] theorem trapEntry_params : s.trapEntry.params = s.params := by unfold State.trapEntry; split <;> rfl
end trapEntry

section receiveChar
variable (s : State) (b : Byte)
theorem receiveChar_reg (q : Reg) : (s.receiveChar b).reg q = if q = 0 then zextByte b else s.reg q := by
  unfold State.receiveChar; split <;> simp [writeResult_reg, reg_setReg]
theorem receiveChar_cond :
    (s.receiveChar b).cond = if s.params.trapInSetsCc then condOf (zextByte b) else s.cond := by
  unfold State.receiveChar; split <;> rfl
@[simp] theorem receiveChar_pc : (s.receiveChar b).pc = s.pc := by unfold State.receiveChar; split <;> rfl
@[simp] theorem receiveChar_run : (s.receiveChar b).run = s.run := by unfold State.receiveChar; split <;> rfl
@[simp] theorem receiveChar_mem : (s.receiveChar b).mem = s.mem := by unfold State.receiveChar; split <;> rfl
@[simp] theorem receiveChar_input : (s.receiveChar b).input = s.input := by
  unfold State.receiveChar; split <;> rfl
@[simp] theorem receiveChar_output : (s.receiveChar b).output = s.output := by
  unfold State.receiveChar; split <;> rfl
@[simp] theorem receiveChar_params : (s.receiveChar b).params = s.params := by
  unfold State.receiveChar; split <;> rfl
end receiveChar

end Sys2Proof.Machine
end

