-- ==== Sys2Proof/Laws/Ops.lean ====
section
/-! SUPPORT. One lemma per shared operation, saying once what it can do. -/

namespace Sys2Proof.Machine

theorem toNat_ne {a b : Word} (h : a ≠ b) : a.toNat ≠ b.toNat := fun e => h (BitVec.eq_of_toNat_eq e)

theorem memWrite_rawRead (s : State) (a b v : Word) :
    (s.memWrite a v).rawRead b = if b = a then v else s.rawRead b := by
  by_cases h : b = a
  · subst h; simp [State.rawRead]
  · simp [State.rawRead, h, read_write_ne, toNat_ne h]

@[simp] theorem memWrite_rawRead_self (s : State) (a v : Word) : (s.memWrite a v).rawRead a = v := by
  simp [memWrite_rawRead]

theorem memWrite_wf {s : State} (a v : Word) (h : s.mem.wf) : (s.memWrite a v).mem.wf :=
  write_wf v a.isLt h

/-- What a poll can do (R37): a byte found and consumed, or the status word cleared. -/
theorem poll_cases (s : State) :
    (∃ b p, s.input.poll = (some b, p) ∧ s.poll =
      (({ s with input := p }).memWrite s.params.kbsrAddr kbsrReady).memWrite s.params.kbdrAddr (zextByte b)) ∨
    (∃ p, s.input.poll = (none, p) ∧ s.poll = ({ s with input := p }).memWrite s.params.kbsrAddr 0x0000#16) := by
  unfold State.poll
  split
  next b p h => exact .inl ⟨b, p, h, rfl⟩
  next p h => exact .inr ⟨p, h, rfl⟩

section poll
variable (s : State)
@[simp] theorem poll_reg (q : Reg) : s.poll.reg q = s.reg q := by unfold State.poll; split <;> rfl
@[simp] theorem poll_pc : s.poll.pc = s.pc := by unfold State.poll; split <;> rfl
@[simp] theorem poll_cond : s.poll.cond = s.cond := by unfold State.poll; split <;> rfl
@[simp] theorem poll_run : s.poll.run = s.run := by unfold State.poll; split <;> rfl
@[simp] theorem poll_output : s.poll.output = s.output := by unfold State.poll; split <;> rfl
@[simp] theorem poll_params : s.poll.params = s.params := by unfold State.poll; split <;> rfl
end poll

theorem poll_rawRead_other (s : State) {a : Word} (hs : a ≠ s.params.kbsrAddr) (hd : a ≠ s.params.kbdrAddr) :
    s.poll.rawRead a = s.rawRead a := by
  rcases poll_cases s with ⟨b, p, -, h⟩ | ⟨p, -, h⟩ <;> simp [h, memWrite_rawRead, hs, hd] <;> rfl

theorem poll_wf {s : State} (h : s.mem.wf) : s.poll.mem.wf := by
  rcases poll_cases s with ⟨b, p, -, e⟩ | ⟨p, -, e⟩ <;> rw [e]
  · exact memWrite_wf _ _ (memWrite_wf _ _ h)
  · exact memWrite_wf _ _ h

section touch
variable (s : State) (a : Word)
theorem touch_other (h : a ≠ s.params.kbsrAddr) : s.touch a = s := by simp [State.touch, h]
theorem touch_kbsr : s.touch s.params.kbsrAddr = s.poll := by simp [State.touch]
@[simp] theorem touch_reg (q : Reg) : (s.touch a).reg q = s.reg q := by unfold State.touch; split <;> simp
@[simp] theorem touch_pc : (s.touch a).pc = s.pc := by unfold State.touch; split <;> simp
@[simp] theorem touch_cond : (s.touch a).cond = s.cond := by unfold State.touch; split <;> simp
@[simp] theorem touch_run : (s.touch a).run = s.run := by unfold State.touch; split <;> simp
@[simp] theorem touch_output : (s.touch a).output = s.output := by unfold State.touch; split <;> simp
@[simp] theorem touch_params : (s.touch a).params = s.params := by unfold State.touch; split <;> simp
theorem touch_wf (h : s.mem.wf) : (s.touch a).mem.wf := by
  unfold State.touch; split
  · exact poll_wf h
  · exact h
theorem touch_rawRead_other {b : Word}
    (h : a = s.params.kbsrAddr → b ≠ s.params.kbsrAddr ∧ b ≠ s.params.kbdrAddr) :
    (s.touch a).rawRead b = s.rawRead b := by
  unfold State.touch; split
  next e => exact poll_rawRead_other s (h e).1 (h e).2
  · rfl
end touch

@[simp] theorem memRead_fst (s : State) (a : Word) : (s.memRead a).1 = (s.touch a).rawRead a := rfl
@[simp] theorem memRead_snd (s : State) (a : Word) : (s.memRead a).2 = s.touch a := rfl
@[simp] theorem fetch_fst (s : State) : s.fetch.1 = (s.touch s.pc).rawRead s.pc := rfl
@[simp] theorem fetch_snd (s : State) : s.fetch.2 = (s.touch s.pc).setPc (s.pc + 1#16) := rfl
@[simp] theorem indirect9_fst (s : State) (off : BitVec 9) :
    (indirect9 s off).1 = (s.touch (pcRel9 s off)).rawRead (pcRel9 s off) := rfl
@[simp] theorem indirect9_snd (s : State) (off : BitVec 9) : (indirect9 s off).2 = s.touch (pcRel9 s off) := rfl

/-- A load is a write of the word read, in the state the read leaves. -/
theorem loadFrom_eq (s : State) (dr : Reg) (ea : Word) :
    s.loadFrom dr ea = (s.touch ea).writeResult dr ((s.touch ea).rawRead ea) := rfl

/-- What taking a byte can do: the first listed byte, nothing at the end of the stream, else the next free byte. -/
theorem take_cases (p : InputPort) :
    (∃ b r, p.bytes = b :: r ∧ p.take = some (b, { p with bytes := r })) ∨
    (p.bytes = [] ∧ p.ended = true ∧ p.take = none) ∨
    (p.bytes = [] ∧ p.ended = false ∧
      p.take = some (Config.hostByte p.byteDraws, { p with byteDraws := p.byteDraws + 1 })) := by
  unfold InputPort.take
  cases hb : p.bytes with
  | cons b r => exact .inl ⟨b, r, rfl, rfl⟩
  | nil => cases he : p.ended <;> simp

/-- A draw of the host's answer leaves the bytes, the end of the stream and the count of free bytes alone. -/
theorem draw_kept (p : InputPort) :
    p.draw.2.bytes = p.bytes ∧ p.draw.2.ended = p.ended ∧ p.draw.2.byteDraws = p.byteDraws := by
  unfold InputPort.draw
  split <;> simp

/-- What the poll of the port can do (R10): find none, the port being as the draw leaves it, or take one byte from
the port that the draw leaves. -/
theorem port_poll_cases (p : InputPort) :
    p.poll = (none, p.draw.2) ∨ ∃ b q, p.draw.2.take = some (b, q) ∧ p.poll = (some b, q) := by
  unfold InputPort.poll
  split
  next q e => rw [e]; exact .inl rfl
  next q e =>
    rw [e]
    cases h : q.take with
    | none => exact .inl rfl
    | some bq => exact .inr ⟨bq.1, bq.2, rfl, rfl⟩

/-- What a blocking read can do (R100): nothing at the end of input, else take one byte and nothing else. -/
theorem inRead_cases (s : State) :
    (s.input.take = none ∧ s.inRead = none) ∨
    ∃ b p, s.input.take = some (b, p) ∧ s.inRead = some (b, { s with input := p }) := by
  unfold State.inRead
  cases h : s.input.take with
  | none => exact .inl ⟨rfl, rfl⟩
  | some bp => exact .inr ⟨bp.1, bp.2, rfl, rfl⟩

/-- What writing a string can do (R95, R97, R107): the walk's bytes are written, and a walk that does not meet a
zero word raises its fault. -/
theorem writeString_cases (s : State) (f : Word → List Byte) (w : Word) :
    (stringFault s.params.kbsrAddr w (scanString f s.params.kbsrAddr s.mem 65536 (s.reg 0)).2 = none ∧
      s.writeString f w = s.outBytes (scanString f s.params.kbsrAddr s.mem 65536 (s.reg 0)).1) ∨
    ∃ info, stringFault s.params.kbsrAddr w (scanString f s.params.kbsrAddr s.mem 65536 (s.reg 0)).2 = some info ∧
      s.writeString f w = (s.outBytes (scanString f s.params.kbsrAddr s.mem 65536 (s.reg 0)).1).raiseFault info := by
  unfold State.writeString
  simp only
  split
  next h => exact .inl ⟨h, rfl⟩
  next info h => exact .inr ⟨info, h, rfl⟩

/-- The walk goes over `n` words that are non-zero and off the device, writing each, and stands at `a + n`. -/
theorem scanString_walk (f : Word → List Byte) (kbsr : Word) (m : Memory) (n fuel : Nat) (a : Word)
    (htop : a.toNat + n < 65536)
    (hne : ∀ k, k < n → m.read (a.toNat + k) ≠ 0x0000#16)
    (hdev : ∀ k, k < n → a.toNat + k ≠ kbsr.toNat) :
    scanString f kbsr m (n + fuel) a =
      ((List.range n).flatMap (fun k => f (m.read (a.toNat + k))) ++
          (scanString f kbsr m fuel (a + BitVec.ofNat 16 n)).1,
        (scanString f kbsr m fuel (a + BitVec.ofNat 16 n)).2) := by
  induction n generalizing a with
  | zero => simp
  | succ n ih =>
    have h0 : a ≠ kbsr := fun e => hdev 0 (by omega) (by rw [e]; rfl)
    have h1 : m.read a.toNat ≠ 0x0000#16 := by simpa using hne 0 (by omega)
    have h2 : a ≠ 0xFFFF#16 := fun e => by rw [e] at htop; simp at htop; omega
    have hs : (a + 1#16).toNat = a.toNat + 1 := by rw [BitVec.toNat_add]; simp; omega
    have hsum : ∀ k, a.toNat + 1 + k = a.toNat + (k + 1) := fun k => by omega
    have hnext : a + 1#16 + BitVec.ofNat 16 n = a + BitVec.ofNat 16 (n + 1) := by
      apply BitVec.eq_of_toNat_eq; simp; omega
    have hih := ih (a + 1#16) (by omega)
      (fun k hk => by rw [hs, hsum]; exact hne (k + 1) (by omega))
      (fun k hk => by rw [hs, hsum]; exact hdev (k + 1) (by omega))
    rw [Nat.succ_add_eq_add_succ, Nat.add_succ]
    simp only [scanString, h0, if_false, h1, h2, hih, List.range_succ_eq_map, List.flatMap_cons,
      List.flatMap_map, Nat.add_zero, hs, hsum, hnext, List.append_assoc, Nat.succ_eq_add_one]

end Sys2Proof.Machine
end

