-- ==== Sys2Proof/Laws/PerInstr.lean ====
section
/-! SUPPORT. Statements made per instruction, one lemma per constructor. -/

namespace Sys2Proof.Laws.OpcodeField

/-- The opcode map of R60, instruction by instruction. -/
def opcode : Instr → BitVec 4
  | .br _ _ => 0x0#4
  | .addReg _ _ _ _ => 0x1#4
  | .addImm _ _ _ => 0x1#4
  | .ld _ _ => 0x2#4
  | .st _ _ => 0x3#4
  | .jsr _ => 0x4#4
  | .jsrr _ _ _ => 0x4#4
  | .andReg _ _ _ _ => 0x5#4
  | .andImm _ _ _ => 0x5#4
  | .ldr _ _ _ => 0x6#4
  | .str _ _ _ => 0x7#4
  | .reserved1000 _ => 0x8#4
  | .notReg _ _ _ => 0x9#4
  | .ldi _ _ => 0xA#4
  | .sti _ _ => 0xB#4
  | .jmp _ _ _ => 0xC#4
  | .res _ => 0xD#4
  | .lea _ _ => 0xE#4
  | .trap _ _ => 0xF#4
  | .ret => 0xC#4
  | .getc _ => 0xF#4
  | .out _ => 0xF#4
  | .puts _ => 0xF#4
  | .inChar _ => 0xF#4
  | .putsp _ => 0xF#4
  | .halt _ => 0xF#4

/-- The opcode field of an instruction's word is the one R60 gives it. -/
def Statement (i : Instr) : Prop := opcodeOf (encode i) = opcode i

theorem br (nzp : BitVec 3) (off : BitVec 9) : Statement (.br nzp off) := by
  simp [Statement, opcode, opcodeOf, encode, field_put_self, field_put_above]

theorem addReg (dr : Reg) (sr1 : Reg) (ign : BitVec 2) (sr2 : Reg) : Statement (.addReg dr sr1 ign sr2) := by
  simp [Statement, opcode, opcodeOf, encode, field_put_self, field_put_above]

theorem addImm (dr : Reg) (sr1 : Reg) (imm : BitVec 5) : Statement (.addImm dr sr1 imm) := by
  simp [Statement, opcode, opcodeOf, encode, field_put_self, field_put_above]

theorem ld (dr : Reg) (off : BitVec 9) : Statement (.ld dr off) := by
  simp [Statement, opcode, opcodeOf, encode, field_put_self, field_put_above]

theorem st (sr : Reg) (off : BitVec 9) : Statement (.st sr off) := by
  simp [Statement, opcode, opcodeOf, encode, field_put_self, field_put_above]

theorem jsr (off : BitVec 11) : Statement (.jsr off) := by
  simp [Statement, opcode, opcodeOf, encode, field_put_self, field_put_above]

theorem jsrr (ignHi : BitVec 2) (base : Reg) (ignLo : BitVec 6) : Statement (.jsrr ignHi base ignLo) := by
  simp [Statement, opcode, opcodeOf, encode, field_put_self, field_put_above]

theorem andReg (dr : Reg) (sr1 : Reg) (ign : BitVec 2) (sr2 : Reg) : Statement (.andReg dr sr1 ign sr2) := by
  simp [Statement, opcode, opcodeOf, encode, field_put_self, field_put_above]

theorem andImm (dr : Reg) (sr1 : Reg) (imm : BitVec 5) : Statement (.andImm dr sr1 imm) := by
  simp [Statement, opcode, opcodeOf, encode, field_put_self, field_put_above]

theorem ldr (dr : Reg) (base : Reg) (off : BitVec 6) : Statement (.ldr dr base off) := by
  simp [Statement, opcode, opcodeOf, encode, field_put_self, field_put_above]

theorem str (sr : Reg) (base : Reg) (off : BitVec 6) : Statement (.str sr base off) := by
  simp [Statement, opcode, opcodeOf, encode, field_put_self, field_put_above]

theorem reserved1000 (ign : BitVec 12) : Statement (.reserved1000 ign) := by
  simp [Statement, opcode, opcodeOf, encode, field_put_self, field_put_above]

theorem notReg (dr : Reg) (sr : Reg) (ign : BitVec 6) : Statement (.notReg dr sr ign) := by
  simp [Statement, opcode, opcodeOf, encode, field_put_self, field_put_above]

theorem ldi (dr : Reg) (off : BitVec 9) : Statement (.ldi dr off) := by
  simp [Statement, opcode, opcodeOf, encode, field_put_self, field_put_above]

theorem sti (sr : Reg) (off : BitVec 9) : Statement (.sti sr off) := by
  simp [Statement, opcode, opcodeOf, encode, field_put_self, field_put_above]

theorem jmp (ignHi : BitVec 3) (base : Reg) (ignLo : BitVec 6) : Statement (.jmp ignHi base ignLo) := by
  simp [Statement, opcode, opcodeOf, encode, field_put_self, field_put_above]

theorem res (ign : BitVec 12) : Statement (.res ign) := by
  simp [Statement, opcode, opcodeOf, encode, field_put_self, field_put_above]

theorem lea (dr : Reg) (off : BitVec 9) : Statement (.lea dr off) := by
  simp [Statement, opcode, opcodeOf, encode, field_put_self, field_put_above]

theorem trap (ign : BitVec 4) (vect : BitVec 8) : Statement (.trap ign vect) := by
  simp [Statement, opcode, opcodeOf, encode, field_put_self, field_put_above]

theorem ret : Statement .ret := by unfold Statement; decide

theorem getc (ign : BitVec 4) : Statement (.getc ign) := by
  simp [Statement, opcode, opcodeOf, encode, field_put_self, field_put_above]

theorem out (ign : BitVec 4) : Statement (.out ign) := by
  simp [Statement, opcode, opcodeOf, encode, field_put_self, field_put_above]

theorem puts (ign : BitVec 4) : Statement (.puts ign) := by
  simp [Statement, opcode, opcodeOf, encode, field_put_self, field_put_above]

theorem inChar (ign : BitVec 4) : Statement (.inChar ign) := by
  simp [Statement, opcode, opcodeOf, encode, field_put_self, field_put_above]

theorem putsp (ign : BitVec 4) : Statement (.putsp ign) := by
  simp [Statement, opcode, opcodeOf, encode, field_put_self, field_put_above]

theorem halt (ign : BitVec 4) : Statement (.halt ign) := by
  simp [Statement, opcode, opcodeOf, encode, field_put_self, field_put_above]

end Sys2Proof.Laws.OpcodeField
end

