-- ==== Sys2Proof/Tests/Slice0.lean ====
section
/-! SUPPORT. The model's own tests: ill-formed terms, one written-out word per constructor, small one-step tests
whose expected results are rows of spec/95_test_vectors.md (the section is named in each comment), and for every
obligation with hypotheses a state that meets them. -/

namespace Sys2Proof.Tests

open Sys2Proof.Machine

/-! ### WellFormed smoke tests: each check refuses an ill-formed term -/

theorem test_wf_jmp_of_ret_word : Instr.wf (.jmp 0 7 0) = false := by decide
theorem test_wf_jmp_other_bits : Instr.wf (.jmp 0 7 1) = true := by decide
theorem test_wf_trap_first_named : Instr.wf (.trap 0 0x20#8) = false := by decide
theorem test_wf_trap_last_named : Instr.wf (.trap 5 0x25#8) = false := by decide
theorem test_wf_trap_outside : Instr.wf (.trap 0 0x1F#8) = true ∧ Instr.wf (.trap 0 0x26#8) = true := by decide

/-! ### Decoding: words from 95_test_vectors.md, with the fields read by hand from the formats of R61 -/

-- 0000 010 000000011
theorem test_decode_br : decode 0x0403#16 = .br 0b010#3 3#9 := by decide
-- 0001 010 000 0 00 001 and 0001 001 001 0 01 001
theorem test_decode_addReg : decode 0x1401#16 = .addReg 2 0 0#2 1 ∧ decode 0x1249#16 = .addReg 1 1 1#2 1 := by decide
-- 0001 001 001 1 11111
theorem test_decode_addImm : decode 0x127F#16 = .addImm 1 1 0b11111#5 := by decide
-- 0010 001 000000010
theorem test_decode_ld : decode 0x2202#16 = .ld 1 2#9 := by decide
-- 0011 001 000000100
theorem test_decode_st : decode 0x3204#16 = .st 1 4#9 := by decide
-- 0100 1 10000000000
theorem test_decode_jsr : decode 0x4C00#16 = .jsr 0x400#11 := by decide
-- 0100 0 00 010 000000 and 0100 0 11 111 111111
theorem test_decode_jsrr : decode 0x4080#16 = .jsrr 0#2 2 0#6 ∧ decode 0x47FF#16 = .jsrr 3#2 7 0x3F#6 := by decide
-- 0101 011 001 0 00 010
theorem test_decode_andReg : decode 0x5642#16 = .andReg 3 1 0#2 2 := by decide
-- 0101 000 000 1 10000
theorem test_decode_andImm : decode 0x5030#16 = .andImm 0 0 0b10000#5 := by decide
-- 0110 010 001 111111
theorem test_decode_ldr : decode 0x647F#16 = .ldr 2 1 0x3F#6 := by decide
-- 0111 111 110 111111
theorem test_decode_str : decode 0x7FBF#16 = .str 7 6 0x3F#6 := by decide
theorem test_decode_reserved1000 : decode 0x8000#16 = .reserved1000 0#12 := by decide
-- 1001 001 000 111111 and 1001 000 000 000000
theorem test_decode_notReg : decode 0x923F#16 = .notReg 1 0 0x3F#6 ∧ decode 0x9000#16 = .notReg 0 0 0#6 := by decide
-- 1010 001 000000010
theorem test_decode_ldi : decode 0xA202#16 = .ldi 1 2#9 := by decide
-- 1011 000 000000001
theorem test_decode_sti : decode 0xB001#16 = .sti 0 1#9 := by decide
-- 1100 000 010 000000 and 1100 111 111 111111
theorem test_decode_jmp : decode 0xC080#16 = .jmp 0#3 2 0#6 ∧ decode 0xCFFF#16 = .jmp 7#3 7 0x3F#6 := by decide
theorem test_decode_res : decode 0xDFFF#16 = .res 0xFFF#12 := by decide
-- 1110 000 111111111
theorem test_decode_lea : decode 0xE1FF#16 = .lea 0 0x1FF#9 := by decide
-- 1111 0000 00100110
theorem test_decode_trap : decode 0xF026#16 = .trap 0#4 0x26#8 ∧ decode 0xF0FF#16 = .trap 0#4 0xFF#8 := by decide
theorem test_decode_ret : decode 0xC1C0#16 = .ret := by decide
theorem test_decode_getc : decode 0xF020#16 = .getc 0#4 := by decide
theorem test_decode_out : decode 0xF021#16 = .out 0#4 := by decide
theorem test_decode_puts : decode 0xF022#16 = .puts 0#4 := by decide
theorem test_decode_inChar : decode 0xF023#16 = .inChar 0#4 := by decide
theorem test_decode_putsp : decode 0xF024#16 = .putsp 0#4 := by decide
-- 1111 0001 00100101
theorem test_decode_halt : decode 0xF125#16 = .halt 1#4 := by decide

/-! ### The small machine of 95_test_vectors.md: `IN_PROMPT` is "> ", `HALT_MESSAGE` is "bye" -/

def params : Params :=
  { defaultParams with inPrompt := [0x3E#8, 0x20#8], haltMessage := [0x62#8, 0x79#8, 0x65#8] }

/-- The word `w` at 0x3000, memory as listed above it, and what the host will supply. -/
def start (w : Word) (above : Memory := []) (bytes : List Byte := []) (answers : List Bool := []) : State :=
  { State.resetWith params with
    mem := (0x3000, w) :: above
    input := { InputPort.fresh with bytes := bytes, ended := true, answers := answers } }

/-- The step answers a next state and it has the property. -/
def after (o : Host.Outcome State Fault Refusal) (p : State → Bool) : Bool :=
  match o with
  | .next t => p t
  | .fault _ | .refused _ => false

/-! ### Operate (§2.1) -/

theorem test_add_overflow_is_negative :
    after (step (((start 0x1401#16).setReg 0 0x7FFF#16).setReg 1 1#16))
      (fun t => t.reg 2 == 0x8000#16 && t.cond == .neg && t.pc == 0x3001#16) = true := by decide
theorem test_add_carry_is_lost :
    after (step (((start 0x1401#16).setReg 0 0xFFFF#16).setReg 1 1#16))
      (fun t => t.reg 2 == 0#16 && t.cond == .zero) = true := by decide
theorem test_addImm_minimum :
    after (step ((start 0x1270#16).setReg 1 0x0010#16)) (fun t => t.reg 1 == 0#16 && t.cond == .zero) = true := by
  decide
theorem test_addImm_maximum :
    after (step ((start 0x126F#16).setReg 1 0x7FF1#16)) (fun t => t.reg 1 == 0x8000#16 && t.cond == .neg) = true := by
  decide
theorem test_andReg :
    after (step (((start 0x5642#16).setReg 1 0xF0F0#16).setReg 2 0x8F00#16))
      (fun t => t.reg 3 == 0x8000#16 && t.cond == .neg) = true := by decide
theorem test_andImm_sign_extends :
    after (step ((start 0x5030#16).setReg 0 0x1234#16)) (fun t => t.reg 0 == 0x1230#16 && t.cond == .pos) = true := by
  decide
theorem test_not :
    after (step ((start 0x923F#16).setReg 0 0x00FF#16)) (fun t => t.reg 1 == 0xFF00#16 && t.cond == .neg) = true := by
  decide
theorem test_lea_sets_flags :
    after (step (start 0xE005#16)) (fun t => t.reg 0 == 0x3006#16 && t.cond == .pos) = true := by decide

/-! ### Control (§2.2) -/

theorem test_br_taken : after (step (start 0x0403#16)) (fun t => t.pc == 0x3004#16) = true := by decide
theorem test_br_not_taken :
    after (step { start 0x0403#16 with cond := .pos }) (fun t => t.pc == 0x3001#16) = true := by decide
theorem test_jmp_ignores_bits :
    after (step ((start 0xCFFF#16).setReg 7 0x1234#16)) (fun t => t.pc == 0x1234#16) = true := by decide
theorem test_ret : after (step ((start 0xC1C0#16).setReg 7 0x3001#16)) (fun t => t.pc == 0x3001#16) = true := by decide
theorem test_jsr_minimum :
    after (step (start 0x4C00#16)) (fun t => t.pc == 0x2C01#16 && t.reg 7 == 0x3001#16 && t.cond == .zero) = true := by
  decide
theorem test_jsrr_of_r7_reads_the_link :
    after (step ((start 0x41C0#16).setReg 7 0x1234#16)) (fun t => t.pc == 0x3001#16 && t.reg 7 == 0x3001#16) = true := by
  decide
theorem test_jsrr_of_r7_before_the_link :
    after (step { (start 0x41C0#16).setReg 7 0x1234#16 with params := { params with jsrrBaseRead := .beforeLink } })
      (fun t => t.pc == 0x1234#16 && t.reg 7 == 0x3001#16) = true := by decide

/-! ### Loads and stores (§2.3) -/

theorem test_ld_its_own_word :
    after (step { start 0x21FF#16 with cond := .pos }) (fun t => t.reg 0 == 0x21FF#16 && t.cond == .pos) = true := by
  decide
theorem test_ldi_polls_at_the_data_read :
    after (step (start 0xA001#16 [(0x3002, 0xFE00#16)] [0x61#8] [true])) (fun t =>
      t.reg 0 == 0x8000#16 && t.rawRead 0xFE00#16 == 0x8000#16 && t.rawRead 0xFE02#16 == 0x0061#16 &&
        t.cond == .neg) = true := by decide
theorem test_ldi_of_the_data_register_does_not_poll :
    after (step (start 0xA001#16 [(0x3002, 0xFE02#16), (0xFE02, 0x0033#16)] [0x61#8] [true])) (fun t =>
      t.reg 0 == 0x0033#16 && t.input.bytes == [0x61#8] && t.rawRead 0xFE00#16 == 0#16) = true := by decide
theorem test_ldr_wraps :
    after (step (start 0x607F#16 [(0xFFFF, 0x00AA#16)])) (fun t => t.reg 0 == 0x00AA#16 && t.cond == .pos) = true := by
  decide
theorem test_ldr_reaches_the_status_word :
    after (step ((start 0x6060#16 [] [0x61#8] [false]).setReg 1 0xFE20#16)) (fun t =>
      t.reg 0 == 0#16 && t.rawRead 0xFE00#16 == 0#16 && t.input.bytes == [0x61#8]) = true := by decide
theorem test_st_keeps_flags :
    after (step ((start 0x3204#16).setReg 1 0x0041#16)) (fun t => t.rawRead 0x3005#16 == 0x0041#16 && t.cond == .zero)
      = true := by decide
theorem test_sti_to_the_status_word_is_plain :
    after (step ((start 0xB001#16 [(0x3002, 0xFE00#16)] [0x61#8] [true]).setReg 0 7#16)) (fun t =>
      t.rawRead 0xFE00#16 == 7#16 && t.input.bytes == [0x61#8]) = true := by decide
theorem test_str_of_its_base :
    after (step ((start 0x7DBF#16).setReg 6 0x4000#16)) (fun t => t.rawRead 0x3FFF#16 == 0x4000#16) = true := by decide

/-! ### TRAP (§2.4) -/

theorem test_getc :
    after (step (start 0xF020#16 [] [0xE9#8])) (fun t => t.reg 0 == 0x00E9#16 && t.cond == .pos && t.output == [])
      = true := by decide
theorem test_getc_zero :
    after (step (start 0xF020#16 [] [0x00#8])) (fun t => t.reg 0 == 0#16 && t.cond == .zero) = true := by decide
theorem test_out_low_byte :
    after (step ((start 0xF021#16).setReg 0 0x0141#16)) (fun t => t.output == [0x41#8]) = true := by decide
theorem test_puts_zero_low_byte_goes_on :
    after (step ((start 0xF022#16 [(0x4000, 0x4100#16), (0x4001, 0x0041#16)]).setReg 0 0x4000#16))
      (fun t => t.output == [0x00#8, 0x41#8] && t.run == .running) = true := by decide
theorem test_puts_overruns :
    after (step ((start 0xF022#16 [(0xFFFE, 0x0041#16), (0xFFFF, 0x0042#16)]).setReg 0 0xFFFE#16))
      (fun t => t.output == [0x41#8, 0x42#8] && t.run == .faulted ⟨.stringOverrun, 0xF022#16, 0xFFFF#16⟩)
      = true := by decide
theorem test_in_prompts_and_echoes :
    after (step (start 0xF023#16 [] [0x37#8]))
      (fun t => t.reg 0 == 0x0037#16 && t.cond == .pos && t.output == [0x3E#8, 0x20#8, 0x37#8]) = true := by decide
theorem test_putsp_odd_length :
    after (step ((start 0xF024#16 [(0x4000, 0x6948#16), (0x4001, 0x0021#16)]).setReg 0 0x4000#16))
      (fun t => t.output == [0x48#8, 0x69#8, 0x21#8] && t.run == .running) = true := by decide
theorem test_putsp_zero_halves :
    after (step ((start 0xF024#16 [(0x4000, 0x4100#16), (0x4001, 0x0065#16), (0x4002, 0x0021#16)]).setReg 0 0x4000#16))
      (fun t => t.output == [0x00#8, 0x41#8, 0x65#8, 0x21#8]) = true := by decide
theorem test_halt :
    after (step (start 0xF025#16)) (fun t =>
      t.run == .halted && t.pc == 0x3001#16 && t.output == [0x62#8, 0x79#8, 0x65#8]) = true := by decide
theorem test_unknown_vector :
    after (step ((start 0xF026#16).setReg 0 5#16)) (fun t => t == ((start 0xF026#16).setReg 0 5#16).setPc 0x3001#16)
      = true := by decide

/-! ### Reserved opcodes and the fetch (§2.5) -/

theorem test_reserved1000 :
    after (step (start 0x8000#16)) (fun t => t.run == .faulted ⟨.undefinedOpcode, 0x8000#16, 0x3000#16⟩) = true := by
  decide
theorem test_res :
    after (step (start 0xDFFF#16)) (fun t => t.run == .faulted ⟨.undefinedOpcode, 0xDFFF#16, 0x3000#16⟩) = true := by
  decide
theorem test_fetch_wraps :
    after (step { start 0#16 with mem := [(0xFFFF, 0x1021#16)], pc := 0xFFFF#16 })
      (fun t => t.reg 0 == 1#16 && t.pc == 0#16) = true := by decide

/-! ### Images (§2.6) -/

def loaded (r : LoadResult) (p : State → Bool) : Bool :=
  match r with
  | .ready s => p s
  | .failed _ => false

theorem test_image_odd_byte :
    loaded (boot params .fresh [.contents [0x30#8, 0#8, 0x10#8, 0x25#8, 0xF0#8]])
      (fun s => s.mem == [(0x3000, 0x1025#16)] && s.pc == 0x3000#16) = true := by decide
theorem test_image_drops_beyond_the_top :
    loaded (boot params .fresh [.contents [0xFF#8, 0xFF#8, 0x12#8, 0x34#8, 0x56#8, 0x78#8]])
      (fun s => s.mem == [(0xFFFF, 0x1234#16)]) = true := by decide
theorem test_image_later_wins :
    loaded (boot params .fresh [.contents [0x30#8, 0#8, 0x11#8, 0x11#8], .contents [0x30#8, 0#8, 0x22#8, 0x22#8]])
      (fun s => s.mem == [(0x3000, 0x2222#16)]) = true := by decide

/-! ### Witnesses: each meets all the hypotheses of the obligation it is named after -/

/-- One word for each clause, in order, with its instruction written out: the least and the greatest words of the
clauses' ranges, and those at which clauses meet. -/
theorem witness_FieldsAreReadFromTheirBits :
    decode 0x0FFF#16 = .br 7 0x1FF ∧ decode 0x1FDF#16 = .addReg 7 7 3 7 ∧ decode 0x1020#16 = .addImm 0 0 0 ∧
    decode 0x2FFF#16 = .ld 7 0x1FF ∧ decode 0x3000#16 = .st 0 0 ∧ decode 0x4800#16 = .jsr 0 ∧
    decode 0x47FF#16 = .jsrr 3 7 0x3F ∧ decode 0x5000#16 = .andReg 0 0 0 0 ∧ decode 0x5FFF#16 = .andImm 7 7 0x1F ∧
    decode 0x6FFF#16 = .ldr 7 7 0x3F ∧ decode 0x7000#16 = .str 0 0 0 ∧ decode 0x8FFF#16 = .reserved1000 0xFFF ∧
    decode 0x9FFF#16 = .notReg 7 7 0x3F ∧ decode 0xAFFF#16 = .ldi 7 0x1FF ∧ decode 0xB000#16 = .sti 0 0 ∧
    decode 0xC1C1#16 = .jmp 0 7 1 ∧ decode 0xC1C0#16 = .ret ∧ decode 0xD000#16 = .res 0 ∧
    decode 0xEFFF#16 = .lea 7 0x1FF ∧ decode 0xFF1F#16 = .trap 15 0x1F ∧ decode 0xFF20#16 = .getc 15 ∧
    decode 0xF021#16 = .out 0 ∧ decode 0xFF22#16 = .puts 15 ∧ decode 0xF023#16 = .inChar 0 ∧
    decode 0xFF24#16 = .putsp 15 ∧ decode 0xF025#16 = .halt 0 ∧ decode 0xF026#16 = .trap 0 0x26 := by decide

theorem witness_DecodeOfEncodeIsIdentity : Instr.wf (.jmp 7 7 0x3F) = true ∧ Instr.wf (.trap 15 0xFF) = true := by
  decide

theorem witness_EveryWordIsOneInstruction :
    Instr.wf (.jmp 0 7 1) = true ∧ encode (.jmp 0 7 1) = 0xC1C1#16 ∧ Instr.wf .ret = true ∧ encode .ret = 0xC1C0#16 := by
  decide

theorem witness_ExactlyTwoOpcodesAreIllegal : (start 0x8000#16).run = .running ∧
    opcodeOf 0x8000#16 = 0b1000#4 ∧ opcodeOf 0xDFFF#16 = 0b1101#4 ∧ isReserved (decode 0x8000#16) = true ∧
    isReserved (decode 0x7FFF#16) = false ∧
    after (exec (decode 0xF022#16) ((start 0xF022#16).setReg 0 0xFE00#16))
      (fun t => t.run == .faulted ⟨.stringThroughDevice, 0xF022#16, 0xFE00#16⟩) = true := by decide

theorem witness_SignExtensionRoundTrips : (16 : Nat) ≤ 16 ∧ (0b10000#5).msb = true ∧ (0b01111#5).msb = false := by
  decide

theorem witness_BootStartsAtTheEntryPoint :
    ∃ s, boot params .fresh [.contents [0x40#8, 0#8, 0#8, 7#8]] = .ready s := ⟨_, rfl⟩

/-- Images of two bytes or more that load; a further image over a word of the first, and one whose first word
stands at 0xFFFF. -/
theorem witness_BootWritesOnlyMemory :
    (∀ f ∈ [ImageFile.contents [0x30#8, 0#8, 0x11#8, 0x11#8]], ∃ b0 b1 rest, f = .contents (b0 :: b1 :: rest)) ∧
    (∃ s, boot params .fresh [.contents [0x30#8, 0#8, 0x11#8, 0x11#8]] = .ready s) ∧
    ([0x22#8, 0x22#8] : List Byte)[2 * 0]? = some 0x22#8 ∧ ([0x22#8, 0x22#8] : List Byte)[2 * 0 + 1]? = some 0x22#8 ∧
    (0x30#8).toNat * 256 + (0#8).toNat + 0 ≤ 0xFFFF ∧ (0xFF#8).toNat * 256 + (0xFF#8).toNat + 0 ≤ 0xFFFF ∧
    (0x2FFF#16).toNat < (0x30#8).toNat * 256 + (0#8).toNat ∧
    (0x30#8).toNat * 256 + (0#8).toNat + [0x22#8, 0x22#8].length / 2 ≤ (0x3001#16).toNat := by
  refine ⟨?_, ⟨_, rfl⟩, by decide, by decide, by decide, by decide, by decide, by decide⟩
  intro f hf
  obtain rfl := List.mem_singleton.mp hf
  exact ⟨_, _, _, rfl⟩

theorem witness_ImageIsBigEndian :
    ([0x10#8, 0x25#8, 0xF0#8] : List Byte)[2 * 0]? = some 0x10#8 ∧
    ([0x10#8, 0x25#8, 0xF0#8] : List Byte)[2 * 0 + 1]? = some 0x25#8 := by decide

/-- The word at 0xFFFF is loaded, and the words on both sides of a loaded word are outside it. -/
theorem witness_LoadedWordsStandFromTheOrigin :
    ([0x1234#16, 0x5678#16] : List Word)[0]? = some 0x1234#16 ∧ (0xFFFF#16).toNat + 0 ≤ 0xFFFF ∧
    (0x2FFF#16).toNat < (0x3000#16).toNat ∧ (0x3000#16).toNat + [0x1025#16].length ≤ (0x3001#16).toNat := by decide

theorem witness_LoadFailureStartsNoRun :
    (ImageFile.cannotOpen = .cannotOpen) ∧ ∃ bytes, ImageFile.contents [0x30#8] = .contents bytes ∧ bytes.length < 2 :=
  ⟨rfl, _, rfl, by decide⟩

theorem witness_PollUpdatesTheKeyboardWords : (start 0#16).params.wf ∧
    (∃ p, (start 0#16 [] [0x41#8] [true]).input.poll = (some 0x41#8, p)) ∧
    (∃ p, (start 0#16 [] [0x41#8] [false]).input.poll = (none, p)) ∧
    (∃ p, (start 0#16 [] [] [true]).input.poll = (none, p)) :=
  ⟨by decide, ⟨_, rfl⟩, ⟨_, rfl⟩, ⟨_, rfl⟩⟩

theorem witness_OnlyStatusReadsPoll :
    0xFE00#16 = (start 0#16).params.kbsrAddr ∧ 0xFE02#16 ≠ (start 0#16).params.kbsrAddr := by decide

theorem witness_StatusStoreIsNeverReadBack : (start 0#16).params.wf ∧
    0xFE00#16 = (start 0#16).params.kbsrAddr ∧ 0xFE02#16 ≠ (start 0#16).params.kbsrAddr := by decide

/-- A port for each clause: an answer listed (yes, no) and none listed; bytes listed, the stream ended, and the
stream going on, as after reset. -/
theorem witness_InputIsOneStream :
    ((start 0#16 [] [0x41#8] [true]).input.answers = [true] ∧ (start 0#16 [] [0x41#8] [true]).input.bytes = [0x41#8] ∧
      (∃ q, (start 0#16 [] [0x41#8] [true]).input.draw = (true, q) ∧ ∃ q', q.take = some (0x41#8, q')) ∧
      ∃ q, (start 0#16 [] [0x41#8] [true]).input.poll = (some 0x41#8, q)) ∧
    ((start 0#16 [] [0x41#8] [false]).input.answers = [false] ∧
      (∃ q, (start 0#16 [] [0x41#8] [false]).input.draw = (false, q)) ∧
      ∃ q, (start 0#16 [] [0x41#8] [false]).input.poll = (none, q)) ∧
    ((start 0#16 [] [] [true]).input.bytes = [] ∧ (start 0#16 [] [] [true]).input.ended = true ∧
      ∃ q, (start 0#16 [] [] [true]).input.draw = (true, q) ∧ q.take = none) ∧
    (State.reset.input.answers = [] ∧ State.reset.input.bytes = [] ∧ State.reset.input.ended = false) ∧
    ({ InputPort.fresh with answers := [true] }.answers = [true] ∧
      ∃ c q, { InputPort.fresh with answers := [true] }.poll = (some c, q)) :=
  ⟨⟨rfl, rfl, ⟨_, rfl, _, rfl⟩, _, rfl⟩, ⟨rfl, ⟨_, rfl⟩, _, rfl⟩, ⟨rfl, rfl, _, rfl, rfl⟩, by decide, ⟨rfl, _, _, rfl⟩⟩

theorem witness_EqualReadingsMakeEqualMemories :
    Memory.wf [(0x3000, 1#16)] ∧ ∀ a, Memory.read [(0x3000, 1#16)] a = Memory.read [(0x3000, 1#16)] a :=
  ⟨by decide, fun _ => rfl⟩

/-- Both sides of each read's `≠ KBSR_ADDR`. -/
theorem witness_LdAndLdrLoadTheWord :
    pcRel9 (start 0#16) 2 ≠ (start 0#16).params.kbsrAddr ∧
    baseOff6 (start 0#16) 1 0x3F ≠ (start 0#16).params.kbsrAddr ∧
    baseOff6 ((start 0#16).setReg 1 0xFE20#16) 1 0x20 = (start 0#16).params.kbsrAddr := by decide

theorem witness_LdiLoadsThroughThePointer :
    pcRel9 (start 0#16) 2 ≠ (start 0#16).params.kbsrAddr ∧
    (start 0#16 [(0x3002, 0x4000#16)]).rawRead (pcRel9 (start 0#16) 2) ≠ (start 0#16).params.kbsrAddr := by decide

theorem witness_PointerAtStatusGoesToTwoAddresses : (start 0#16).params.wf ∧
    pcRel9 ((start 0#16).setPc 0xFDFF#16) 1 = ((start 0#16).setPc 0xFDFF#16).params.kbsrAddr := by decide

theorem witness_StiStoresThroughThePointer : pcRel9 (start 0#16) 2 ≠ (start 0#16).params.kbsrAddr := by decide

theorem witness_BrBranchesOnTheFlag :
    ((Cond.neg = .neg ∧ (0b100#3).getLsbD 2 = true) ∧ (Cond.zero = .zero ∧ (0b010#3).getLsbD 1 = true) ∧
      (Cond.pos = .pos ∧ (0b001#3).getLsbD 0 = true)) ∧ (0b101#3).getLsbD 1 = false := by decide

theorem witness_UnknownVectorIsANoOp : (0x1F#8).toNat < 0x20 ∧ 0x25 < (0x26#8).toNat := by decide

theorem witness_GetcReadsOneByte :
    ∃ p, (start 0xF020#16 [] [0x41#8]).input.take = some (0x41#8, p) := ⟨_, rfl⟩

theorem witness_InPromptsEchoesAndReads :
    ∃ p, (start 0xF023#16 [] [0x00#8]).input.take = some (0x00#8, p) := ⟨_, rfl⟩

theorem witness_ReadsAreStuckAtTheEndOfInput :
    (start 0xF020#16).input.bytes = [] ∧ (start 0xF020#16).input.ended = true := by decide

/-- A string of one word that ends exactly at 0xFFFF (95_test_vectors.md §2.4). -/
theorem witness_PutsWritesTheString :
    StringAt ((start 0xF022#16 [(0xFFFE, 0x0041#16)]).setReg 0 0xFFFE#16) 0xFFFE#16 1 := by
  refine ⟨by decide, ?_, ?_, by decide⟩
  · intro k hk
    rcases (show k = 0 ∨ k = 1 by omega) with rfl | rfl <;> decide
  · intro k hk
    obtain rfl : k = 0 := by omega
    decide

/-- The empty string. -/
theorem witness_PutspWritesThePackedString :
    StringAt ((start 0xF024#16).setReg 0 0x4000#16) 0x4000#16 0 := by
  refine ⟨by decide, ?_, fun _ h => absurd h (by omega), by decide⟩
  intro k hk
  obtain rfl : k = 0 := by omega
  decide

/-- One word below KBSR_ADDR (the string then runs to it), and one below 0xFFFF (the word there is not zero). -/
theorem witness_StringFaultsAreRaised :
    (let s := (start 0xF022#16 [(0xFDFF, 0x0041#16)]).setReg 0 0xFDFF#16
     (s.reg 0).toNat + 1 < 65536 ∧
     (∀ k, k < 1 → s.reg 0 + BitVec.ofNat 16 k ≠ s.params.kbsrAddr ∧
       s.rawRead (s.reg 0 + BitVec.ofNat 16 k) ≠ 0x0000#16) ∧ s.reg 0 + BitVec.ofNat 16 1 = s.params.kbsrAddr) ∧
    (let s := (start 0xF022#16 [(0xFFFE, 0x0041#16), (0xFFFF, 0x0042#16)]).setReg 0 0xFFFE#16
     (s.reg 0).toNat + 1 < 65536 ∧
     (∀ k, k < 1 → s.reg 0 + BitVec.ofNat 16 k ≠ s.params.kbsrAddr ∧
       s.rawRead (s.reg 0 + BitVec.ofNat 16 k) ≠ 0x0000#16) ∧
     (s.reg 0).toNat + 1 = 65535 ∧ 0xFFFF#16 ≠ s.params.kbsrAddr ∧ s.rawRead 0xFFFF#16 ≠ 0x0000#16) := by
  refine ⟨⟨by decide, ?_, by decide⟩, ⟨by decide, ?_, by decide, by decide, by decide⟩⟩ <;>
    (intro k hk; (obtain rfl : k = 0 := by omega); decide)

theorem witness_TrapWritesNeitherPcNorR7 : ∃ t, trapVector (.halt 0) ≠ none ∧ (start 0xF025#16).run = .running ∧
    exec (.halt 0) (start 0xF025#16) = .next t ∧ t.isFaulted = false ∧ (start 0xF025#16).params.trapLinksR7 = false :=
  ⟨_, by decide, rfl, rfl, rfl, rfl⟩

theorem witness_StepRunsTheDecodedInstruction :
    ((start 0x1025#16).run = .running ∧ (start 0x1025#16).pc ≠ (start 0x1025#16).params.kbsrAddr ∧
      decode ((start 0x1025#16).rawRead (start 0x1025#16).pc) = .addImm 0 0 5) ∧
    (let s := (start 0#16 [] [0x41#8] [true]).setPc 0xFE00#16
     s.run = .running ∧ s.pc = s.params.kbsrAddr ∧ decode (s.poll.rawRead s.pc) = .reserved1000 0) := by decide

theorem witness_StoppedCoreTakesNoStep :
    { start 0#16 with run := .halted }.run = .halted ∧
    { start 0#16 with run := .faulted ⟨.undefinedOpcode, 0x8000#16, 0x3000#16⟩ }.run =
      .faulted ⟨.undefinedOpcode, 0x8000#16, 0x3000#16⟩ := by decide

theorem witness_FetchFromStatusPolls :
    (let s := (start 0#16 [] [0x41#8] [true]).setPc 0xFE00#16
     s.params.wf ∧ s.run = .running ∧ s.pc = s.params.kbsrAddr ∧ ∃ p, s.input.poll = (some 0x41#8, p)) ∧
    (let s := (start 0#16 [] [] [true]).setPc 0xFE00#16
     s.params.wf ∧ s.run = .running ∧ s.pc = s.params.kbsrAddr ∧ ∃ p, s.input.poll = (none, p)) :=
  ⟨⟨by decide, rfl, rfl, _, rfl⟩, ⟨by decide, rfl, rfl, _, rfl⟩⟩

/-- 0x1025 is stored into the word the next fetch reads, by ST #0 (95_test_vectors.md §2.3), by STI through the
pointer at 0x3003, and by STR from a base that is the pc. -/
theorem witness_StoreIsSeenByTheNextFetch :
    let s := (((start 0x3000#16 [(0x3003, 0x3001#16)]).setReg 0 0x1025#16).setReg 1 0x3001#16).setPc 0x3001#16
    s.run = .running ∧ s.pc ≠ s.params.kbsrAddr ∧
    (storeSource (.st 0 0) = some 0 ∧ storeAddr (.st 0 0) s = some s.pc) ∧
    (storeSource (.sti 0 2) = some 0 ∧ storeAddr (.sti 0 2) s = some s.pc) ∧
    (storeSource (.str 0 1 0) = some 0 ∧ storeAddr (.str 0 1 0) s = some s.pc) := by decide

theorem witness_PlacedWordIsFetchedNext : (0xFFFF : Nat) < 65536 := by decide

theorem witness_EveryStepKeepsTheInvariant : ∃ t, (start 0x3000#16).inv ∧ step (start 0x3000#16) = .next t :=
  ⟨_, by decide, rfl⟩

theorem witness_NoStepChangesTheParameters : ∃ t, step (start 0x1025#16) = .next t := ⟨_, rfl⟩

/-- One running state for each way a step can end: HALTED, a reserved opcode, a model-only fault, RUNNING. -/
theorem witness_RunStateFollowsItsTable :
    after (step (start 0xF025#16)) (fun t => t.run == .halted) = true ∧
    after (step (start 0xD000#16)) (fun t => t.run == .faulted ⟨.undefinedOpcode, 0xD000#16, 0x3000#16⟩) = true ∧
    after (step ((start 0xF024#16).setReg 0 0xFE00#16))
      (fun t => t.run == .faulted ⟨.stringThroughDevice, 0xF024#16, 0xFE00#16⟩) = true ∧
    after (step (start 0x1025#16)) (fun t => t.run == .running) = true := by decide

/-- Both alternatives occur. -/
theorem witness_OnlyEndedInputIsStuck :
    (∃ t, step (start 0xF020#16 [] [0x41#8]) = .next t) ∧ step (start 0xF023#16) = .fault (.inputEnded [0x3E#8, 0x20#8]) :=
  ⟨⟨_, rfl⟩, rfl⟩

theorem witness_OnlyTheNamedRegisterIsWritten : ∃ t, (start 0x4805#16).params.trapLinksR7 = false ∧
    exec (.jsr 5) (start 0x4805#16) = .next t ∧ t.isFaulted = false ∧ writtenReg (.jsr 5) ≠ some 6 :=
  ⟨_, rfl, rfl, rfl, by decide⟩

theorem witness_OnlyTheNamedInstructionsSetCond :
    (∃ t, (start 0#16).params.asDecided ∧ exec (.jsr 5) (start 0#16) = .next t ∧ t.isFaulted = false ∧
      setsCond (.jsr 5) = false) ∧
    (∃ t, (start 0#16).params.asDecided ∧ exec (.lea 0 5) (start 0#16) = .next t ∧ t.isFaulted = false ∧
      setsCond (.lea 0 5) = true ∧ writtenReg (.lea 0 5) = some 0) :=
  ⟨⟨_, by decide, rfl, rfl, rfl⟩, ⟨_, by decide, rfl, rfl, rfl, rfl⟩⟩

theorem witness_MemoryChangesOnlyByStoresAndPolls :
    (∃ t, exec (.st 0 0) ((start 0#16).setPc 0x3001#16) = .next t ∧ t.isFaulted = false ∧
      storeAddr (.st 0 0) ((start 0#16).setPc 0x3001#16) ≠ some 0x3002#16 ∧
      ¬ polls (.st 0 0) ((start 0#16).setPc 0x3001#16)) ∧
    (∃ t, exec (.ldi 0 1) ((start 0#16 [(0x3002, 0xFE00#16)] [0x61#8] [true]).setPc 0x3001#16) = .next t ∧
      t.isFaulted = false ∧ polls (.ldi 0 1) ((start 0#16 [(0x3002, 0xFE00#16)] [0x61#8] [true]).setPc 0x3001#16) ∧
      0x3002#16 ≠ (start 0#16).params.kbsrAddr ∧ 0x3002#16 ≠ (start 0#16).params.kbdrAddr) := by
  refine ⟨⟨_, rfl, rfl, by decide, ?_⟩, ⟨_, rfl, rfl, ?_, by decide, by decide⟩⟩ <;> unfold polls <;> decide

theorem witness_OnlyControlTransfersChangeThePc : ∃ t, exec (.out 0) (start 0#16) = .next t ∧ t.isFaulted = false ∧
    transfersControl (.out 0) = false := ⟨_, rfl, rfl, rfl⟩

theorem witness_OnlyPollsAndReadsTakeInput : ∃ t, exec (.puts 0) (start 0#16 [(0x3001, 1#16)]) = .next t ∧
    ¬ polls (.puts 0) (start 0#16 [(0x3001, 1#16)]) ∧ trapVector (.puts 0) ≠ some 0x20#8 ∧ trapVector (.puts 0) ≠ some 0x23#8 :=
  ⟨_, rfl, by unfold polls; decide, by decide, by decide⟩

theorem witness_OnlyTrapsAppendOutput :
    after (step ((start 0xF021#16).setReg 0 0x0141#16)) (fun t => t.output != []) = true := by decide

end Sys2Proof.Tests
end

/-! ### What every step keeps

A property that the elementary operations keep is kept by every instruction, and so by every step. The walk over
the instructions is made once, in `KeptByWrites.exec`; each rule about the whole machine then gives the property
and one line per operation. -/

namespace Sys2Proof.Machine

/-- The property is kept by the elementary writes, those to registers, pc, COND, memory, output and run state:
all that an instruction can do but take input. -/
structure KeptByWrites (P : State → Prop) : Prop where
  setReg : ∀ s r v, P s → P (s.setReg r v)
  setPc : ∀ s v, P s → P (s.setPc v)
  setCC : ∀ s v, P s → P (s.setCC v)
  memWrite : ∀ s a v, P s → P (s.memWrite a v)
  outBytes : ∀ s bs, P s → P (s.outBytes bs)
  raiseFault : ∀ s info, P s → P (s.raiseFault info)
  halt : ∀ s, P s → P s.halt

/-- The property does not depend on the input port. -/
def KeptByInput (P : State → Prop) : Prop := ∀ (s : State) (p : InputPort), P s → P { s with input := p }

/-- The property holds of the next state, if the outcome is one. -/
def HoldsNext (P : State → Prop) (o : Host.Outcome State Fault Refusal) : Prop := ∀ t, o = .next t → P t

theorem HoldsNext.next {P : State → Prop} {t : State} (h : P t) : HoldsNext P (.next t) := by
  rintro _ ⟨⟩; exact h

theorem HoldsNext.fault {P : State → Prop} (why : Fault) : HoldsNext P (.fault why) := nofun

section
variable {P : State → Prop} (h : KeptByWrites P)
include h

theorem KeptByWrites.writeResult (s : State) (r : Reg) (v : Word) (hs : P s) : P (s.writeResult r v) :=
  h.setCC _ _ (h.setReg _ _ _ hs)

theorem KeptByWrites.link (s : State) (hs : P s) : P s.link := by
  unfold State.link
  split
  · exact h.writeResult _ _ _ hs
  · exact h.setReg _ _ _ hs

theorem KeptByWrites.trapEntry (s : State) (hs : P s) : P s.trapEntry := by
  unfold State.trapEntry
  split
  · exact h.setReg _ _ _ hs
  · exact hs

theorem KeptByWrites.receiveChar (s : State) (b : Byte) (hs : P s) : P (s.receiveChar b) := by
  unfold State.receiveChar
  split
  · exact h.writeResult _ _ _ hs
  · exact h.setReg _ _ _ hs

theorem KeptByWrites.writeString (s : State) (f : Word → List Byte) (w : Word) (hs : P s) :
    P (s.writeString f w) := by
  obtain ⟨-, e⟩ | ⟨info, -, e⟩ := writeString_cases s f w <;> rw [e]
  · exact h.outBytes _ _ hs
  · exact h.raiseFault _ _ (h.outBytes _ _ hs)

/-- The poll takes input and writes the keyboard words, and a read does nothing else to the state. -/
theorem KeptByWrites.touch (hin : KeptByInput P) (s : State) (a : Word) (hs : P s) : P (s.touch a) := by
  unfold State.touch
  split
  · obtain ⟨b, p, -, e⟩ | ⟨p, -, e⟩ := poll_cases s <;> rw [e]
    · exact h.memWrite _ _ _ (h.memWrite _ _ _ (hin _ _ hs))
    · exact h.memWrite _ _ _ (hin _ _ hs)
  · exact hs

theorem KeptByWrites.execJsrr (base : Reg) (s : State) (hs : P s) : HoldsNext P (execJsrr base s) := by
  unfold Machine.execJsrr
  split <;> exact .next (h.setPc _ _ (h.link _ hs))

theorem KeptByWrites.outRoutine (s : State) (hs : P s) : HoldsNext P (outRoutine s) :=
  .next (h.outBytes _ _ hs)

theorem KeptByWrites.haltRoutine (s : State) (hs : P s) : HoldsNext P (haltRoutine s) :=
  .next (h.halt _ (h.outBytes _ _ hs))

theorem KeptByWrites.getcRoutine (hin : KeptByInput P) (s : State) (hs : P s) :
    HoldsNext P (getcRoutine s) := by
  unfold Machine.getcRoutine
  obtain ⟨-, e⟩ | ⟨b, p, -, e⟩ := inRead_cases s <;> rw [e]
  · exact .fault _
  · exact .next (h.receiveChar _ _ (hin _ _ hs))

theorem KeptByWrites.inRoutine (hin : KeptByInput P) (s : State) (hs : P s) : HoldsNext P (inRoutine s) := by
  unfold Machine.inRoutine
  obtain ⟨-, e⟩ | ⟨b, p, -, e⟩ := inRead_cases (s.outBytes s.params.inPrompt).flush <;> simp only [e]
  · exact .fault _
  · exact .next (h.receiveChar _ _ (h.outBytes _ _ (hin _ _ (h.outBytes _ _ hs))))

/-- TRAP keeps the property: its routines do, GETC and IN if it does not depend on the input port. -/
theorem KeptByWrites.execTrap (ign : BitVec 4) (vect : BitVec 8) (s : State)
    (hin : vect = 0x20#8 ∨ vect = 0x23#8 → KeptByInput P) (hs : P s) : HoldsNext P (execTrap ign vect s) := by
  have he := h.trapEntry s hs
  unfold Machine.execTrap
  split
  · exact h.getcRoutine (hin (.inl rfl)) _ he
  · exact h.outRoutine _ he
  · exact .next (h.writeString _ _ _ he)
  · exact h.inRoutine (hin (.inr rfl)) _ he
  · exact .next (h.writeString _ _ _ he)
  · exact h.haltRoutine _ he
  · exact .next he

/-- Every instruction keeps the property, if the elementary writes do, and the side effects of the reads that the
instruction makes, and, for GETC and IN only, the taking of input. -/
theorem KeptByWrites.exec (i : Instr) (s : State)
    (hread : ∀ a ∈ readAddrs i s, ∀ u, P u → P (u.touch a))
    (hin : trapVector i = some 0x20#8 ∨ trapVector i = some 0x23#8 → KeptByInput P)
    (hs : P s) : HoldsNext P (exec i s) := by
  have he := h.trapEntry s hs
  cases i with
  | br nzp off =>
    refine .next ?_
    split
    · exact h.setPc _ _ hs
    · exact hs
  | addReg | addImm | andReg | andImm | notReg | lea => exact .next (h.writeResult _ _ _ hs)
  | ld dr off => exact .next (h.writeResult _ _ _ (hread _ (by simp [readAddrs]) _ hs))
  | ldr dr base off => exact .next (h.writeResult _ _ _ (hread _ (by simp [readAddrs]) _ hs))
  | ldi dr off =>
    have hptr := hread (pcRel9 s off) (by simp [readAddrs]) s hs
    exact .next (h.writeResult _ _ _ (hread _ (by simp [readAddrs]) _ hptr))
  | st sr off => exact .next (h.memWrite _ _ _ hs)
  | str sr base off => exact .next (h.memWrite _ _ _ hs)
  | sti sr off => exact .next (h.memWrite _ _ _ (hread _ (by simp [readAddrs]) _ hs))
  | jsr off => exact .next (h.setPc _ _ (h.link _ hs))
  | jsrr _ base _ => exact h.execJsrr base s hs
  | jmp | ret => exact .next (h.setPc _ _ hs)
  | reserved1000 | res => exact .next (h.raiseFault _ _ hs)
  | trap ign vect => exact h.execTrap ign vect s (fun hv => hin (by simpa [trapVector] using hv)) hs
  | getc _ => exact h.getcRoutine (hin (.inl rfl)) _ he
  | out _ => exact h.outRoutine _ he
  | puts ign => exact .next (h.writeString _ _ _ he)
  | inChar _ => exact h.inRoutine (hin (.inr rfl)) _ he
  | putsp ign => exact .next (h.writeString _ _ _ he)
  | halt _ => exact h.haltRoutine _ he

/-- Every step keeps a property that the elementary writes keep and that does not depend on the input port. -/
theorem KeptByWrites.step (hin : KeptByInput P) (s : State) (hs : P s) : HoldsNext P (step s) := by
  unfold Machine.step
  split
  · exact h.exec _ _ (fun a _ u => h.touch hin u a) (fun _ => hin) (h.setPc _ _ (h.touch hin _ _ hs))
  · exact .next hs
  · exact .next hs

end

end Sys2Proof.Machine

/-! ### The rules about the whole machine -/

namespace Sys2Proof.Machine

theorem params_keptByWrites (p : Params) : KeptByWrites (fun s => s.params = p) where
  setReg _ _ _ hs := hs
  setPc _ _ hs := hs
  setCC _ _ hs := hs
  memWrite _ _ _ hs := hs
  outBytes _ _ hs := hs
  raiseFault _ _ hs := hs
  halt _ hs := hs

/-- Settles O52. -/
theorem noStepChangesTheParameters : Obligations.NoStepChangesTheParameters := fun s t ht =>
  (params_keptByWrites s.params).step (fun _ _ hs => hs) s rfl t ht

theorem mem_wf_keptByWrites : KeptByWrites (fun s => s.mem.wf) where
  setReg _ _ _ hs := hs
  setPc _ _ hs := hs
  setCC _ _ hs := hs
  memWrite _ a v hs := memWrite_wf a v hs
  outBytes _ _ hs := hs
  raiseFault _ _ hs := hs
  halt _ hs := hs

/-- Settles O51: memory stays canonical because every write keeps the form, and the keyboard addresses stay legal
because no step changes the parameters. -/
theorem everyStepKeepsTheInvariant : Obligations.EveryStepKeepsTheInvariant := by
  rintro s t ⟨hmem, hparams⟩ ht
  have hkept : t.params = s.params := noStepChangesTheParameters s t ht
  exact ⟨mem_wf_keptByWrites.step (fun _ _ hs => hs) s hmem t ht, hkept ▸ hparams⟩

/-- Settles O9. -/
theorem resetMeetsTheInvariant : Obligations.ResetMeetsTheInvariant :=
  ⟨nil_wf, by decide⟩

/-- The port together with the status address, by which alone a read can reach the port. -/
theorem input_keptByWrites (p : InputPort) (kbsr : Word) :
    KeptByWrites (fun s => s.input = p ∧ s.params.kbsrAddr = kbsr) where
  setReg _ _ _ hs := hs
  setPc _ _ hs := hs
  setCC _ _ hs := hs
  memWrite _ _ _ hs := hs
  outBytes _ _ hs := hs
  raiseFault _ _ hs := hs
  halt _ hs := hs

/-- Settles O59: no read of the instruction is of the status address, so none has a side effect. -/
theorem onlyPollsAndReadsTakeInput : Obligations.OnlyPollsAndReadsTakeInput := by
  intro i s t ht hpolls hgetc hinChar
  refine ((input_keptByWrites s.input s.params.kbsrAddr).exec i s ?_ ?_ ⟨rfl, rfl⟩ t ht).1
  · rintro a ha u ⟨hinput, hkbsr⟩
    have hne : a ≠ u.params.kbsrAddr := by
      rintro rfl
      rw [hkbsr] at ha
      exact hpolls ha
    rw [touch_other u a hne]
    exact ⟨hinput, hkbsr⟩
  · rintro (hv | hv)
    · exact absurd hv hgetc
    · exact absurd hv hinChar

end Sys2Proof.Machine

/-! ### Sign extension -/

namespace Sys2Proof.Machine

theorem setWidth_sext {n : Nat} (v : BitVec n) (h : n ≤ 16) : (sext v).setWidth n = v := by
  apply BitVec.eq_of_getLsbD_eq
  intro k hk
  have hk16 : k < 16 := by omega
  simp only [sext, BitVec.getLsbD_setWidth, BitVec.getLsbD_signExtend, hk, hk16, decide_true, Bool.true_and,
    if_true]

theorem toNat_sext {n : Nat} (v : BitVec n) (h : n ≤ 16) :
    (sext v).toNat = if v.msb then v.toNat + (0x10000 - 2 ^ n) else v.toNat := by
  have hfit : (v.setWidth 16).toNat = v.toNat := BitVec.toNat_setWidth_of_le h
  rw [sext, BitVec.toNat_signExtend, hfit]
  split <;> rfl

/-- Settles O7. -/
theorem signExtensionRoundTrips : Obligations.SignExtensionRoundTrips := fun _ v h =>
  ⟨setWidth_sext v h, toNat_sext v h⟩

end Sys2Proof.Machine

/-! ### The input port -/

namespace Sys2Proof.Machine

section
variable {p q q' : InputPort} {b : Byte}

theorem take_of_bytes {bs : List Byte} (h : p.bytes = b :: bs) : p.take = some (b, { p with bytes := bs }) := by
  simp [InputPort.take, h]

theorem take_of_ended (hb : p.bytes = []) (he : p.ended = true) : p.take = none := by
  simp [InputPort.take, hb, he]

theorem take_of_free (hb : p.bytes = []) (he : p.ended = false) :
    p.take = some (Config.hostByte p.byteDraws, { p with byteDraws := p.byteDraws + 1 }) := by
  simp [InputPort.take, hb, he]

theorem draw_of_answers {a : Bool} {r : List Bool} (h : p.answers = a :: r) :
    p.draw = (a, { p with answers := r }) := by
  simp [InputPort.draw, h]

theorem draw_of_free (h : p.answers = []) :
    p.draw = (Config.hostReady p.answerDraws, { p with answerDraws := p.answerDraws + 1 }) := by
  simp [InputPort.draw, h]

theorem poll_of_no (h : p.draw = (false, q)) : p.poll = (none, q) := by
  simp [InputPort.poll, h]

theorem poll_of_yes_none (h : p.draw = (true, q)) (ht : q.take = none) : p.poll = (none, q) := by
  simp [InputPort.poll, h, ht]

theorem poll_of_yes_some (h : p.draw = (true, q)) (ht : q.take = some (b, q')) : p.poll = (some b, q') := by
  simp [InputPort.poll, h, ht]

/-- A byte that a poll finds is the one a blocking read takes from the port that the draw leaves. -/
theorem take_of_poll_some (h : p.poll = (some b, q)) : p.draw.2.take = some (b, q) := by
  obtain e | ⟨c, q', ht, e⟩ := port_poll_cases p <;> rw [h] at e
  · cases e
  · cases e; exact ht

theorem draw_of_poll_none (h : p.poll = (none, q)) : q = p.draw.2 := by
  obtain e | ⟨c, q', -, e⟩ := port_poll_cases p <;> rw [h] at e <;> cases e
  rfl

theorem ended_of_take (h : p.take = some (b, q)) : q.ended = p.ended := by
  obtain ⟨c, r, -, e⟩ | ⟨-, -, e⟩ | ⟨-, -, e⟩ := take_cases p <;> rw [h] at e <;> cases e <;> rfl

end

theorem poll_ended (p : InputPort) : p.poll.2.ended = p.ended := by
  obtain ⟨-, hended, -⟩ := draw_kept p
  obtain e | ⟨b, q, ht, e⟩ := port_poll_cases p <;> rw [e]
  · exact hended
  · exact (ended_of_take ht).trans hended

theorem poll_of_listed_byte {p q : InputPort} {b c : Byte} {bs : List Byte} (hb : p.bytes = b :: bs)
    (h : p.poll = (some c, q)) : c = b ∧ q.bytes = bs := by
  obtain ⟨hbytes, -, -⟩ := draw_kept p
  have ht := take_of_poll_some h
  rw [take_of_bytes (hbytes.trans hb)] at ht
  cases ht
  exact ⟨rfl, rfl⟩

theorem poll_at_end {p : InputPort} (hb : p.bytes = []) (he : p.ended = true) : p.poll.1 = none := by
  obtain ⟨hbytes, hended, -⟩ := draw_kept p
  obtain e | ⟨b, q, ht, -⟩ := port_poll_cases p
  · rw [e]
  · rw [take_of_ended (hbytes.trans hb) (hended.trans he)] at ht
    cases ht

theorem poll_of_free_byte {p q : InputPort} {c : Byte} (hb : p.bytes = []) (he : p.ended = false)
    (h : p.poll = (some c, q)) :
    c = Config.hostByte p.byteDraws ∧ q.bytes = [] ∧ q.byteDraws = p.byteDraws + 1 := by
  obtain ⟨hbytes, hended, hdraws⟩ := draw_kept p
  have ht := take_of_poll_some h
  rw [take_of_free (hbytes.trans hb) (hended.trans he)] at ht
  cases ht
  exact ⟨by rw [hdraws], hbytes.trans hb, by rw [hdraws]⟩

theorem poll_none_kept {p q : InputPort} (h : p.poll = (none, q)) :
    q.bytes = p.bytes ∧ q.byteDraws = p.byteDraws := by
  obtain ⟨hbytes, -, hdraws⟩ := draw_kept p
  rw [draw_of_poll_none h]
  exact ⟨hbytes, hdraws⟩

/-- Settles O23, clause by clause. -/
theorem inputIsOneStream : Obligations.InputIsOneStream := fun p =>
  ⟨fun _ _ ha => draw_of_answers ha,
    fun ha => draw_of_free ha,
    fun _ hd => poll_of_no hd,
    fun _ hd ht => poll_of_yes_none hd ht,
    fun _ _ _ hd ht => poll_of_yes_some hd ht,
    fun _ _ _ ha hb => poll_of_yes_some (draw_of_answers ha) (take_of_bytes hb),
    fun _ ha => poll_of_no (draw_of_answers ha),
    fun _ _ hb => ⟨take_of_bytes hb, fun _ _ hp => poll_of_listed_byte hb hp⟩,
    fun hb he => ⟨take_of_ended hb he, poll_at_end hb he⟩,
    fun hb he => ⟨Config.hostByte p.byteDraws, take_of_free hb he,
      fun _ ha => poll_of_yes_some (draw_of_answers ha) (take_of_free hb he),
      fun _ _ hp => poll_of_free_byte hb he hp⟩,
    fun _ hp => poll_none_kept hp,
    poll_ended p⟩

end Sys2Proof.Machine

/-! ### The registers, the pc and COND under every instruction

`exec_registerEffect` says once, instruction by instruction, what becomes of the general registers, the pc and
COND; each rule about one of them is then a split along the kinds of effect. -/

namespace Sys2Proof.Machine

/-- The general registers, COND, the pc and the parameters are the same. -/
structure CpuKept (s t : State) : Prop where
  reg : ∀ r, t.reg r = s.reg r
  cond : t.cond = s.cond
  pc : t.pc = s.pc
  params : t.params = s.params

namespace CpuKept

variable {s t : State}

theorem refl (s : State) : CpuKept s s := ⟨fun _ => rfl, rfl, rfl, rfl⟩

theorem memWrite (h : CpuKept s t) (a v : Word) : CpuKept s (t.memWrite a v) := ⟨h.reg, h.cond, h.pc, h.params⟩

theorem outBytes (h : CpuKept s t) (bs : List Byte) : CpuKept s (t.outBytes bs) := ⟨h.reg, h.cond, h.pc, h.params⟩

theorem setInput (h : CpuKept s t) (p : InputPort) : CpuKept s { t with input := p } :=
  ⟨h.reg, h.cond, h.pc, h.params⟩

theorem raiseFault (h : CpuKept s t) (info : FaultInfo) : CpuKept s (t.raiseFault info) :=
  ⟨h.reg, h.cond, h.pc, h.params⟩

theorem halt (h : CpuKept s t) : CpuKept s t.halt := ⟨h.reg, h.cond, h.pc, h.params⟩

theorem touch (h : CpuKept s t) (a : Word) : CpuKept s (t.touch a) where
  reg r := (touch_reg t a r).trans (h.reg r)
  cond := (touch_cond t a).trans h.cond
  pc := (touch_pc t a).trans h.pc
  params := (touch_params t a).trans h.params

theorem writeString (h : CpuKept s t) (f : Word → List Byte) (w : Word) : CpuKept s (t.writeString f w) := by
  obtain ⟨-, e⟩ | ⟨info, -, e⟩ := writeString_cases t f w <;> rw [e]
  · exact h.outBytes _
  · exact (h.outBytes _).raiseFault _

end CpuKept

/-- The kinds of effect an instruction can have on the general registers, the pc and COND, with what the tables of
R20, R23 and R26 say of an instruction of that kind. -/
inductive RegisterEffect (i : Instr) (s : State) : State → Prop
  /-- The operate instructions, the loads and LEA: a result, and COND from it. -/
  | result {u : State} (hkept : CpuKept s u) (dr : Reg) (v : Word)
      (hwritten : writtenReg i = some dr) (hsets : setsCond i = true) : RegisterEffect i s (u.writeResult dr v)
  /-- GETC and IN: a character in R0. -/
  | received {u : State} (hkept : CpuKept s.trapEntry u) (b : Byte)
      (hwritten : writtenReg i = some 0) (hsets : setsCond i = true) : RegisterEffect i s (u.receiveChar b)
  /-- JSR and JSRR: the link in R7, then the jump. -/
  | linked (target : Word) (hwritten : writtenReg i = some 7) (hsets : setsCond i = false)
      (htransfers : transfersControl i = true) : RegisterEffect i s (s.link.setPc target)
  /-- BR, JMP and RET. -/
  | jumped (target : Word) (hsets : setsCond i = false) (htransfers : transfersControl i = true) :
      RegisterEffect i s (s.setPc target)
  /-- The stores and the reserved opcodes. -/
  | kept {t : State} (hkept : CpuKept s t) (hsets : setsCond i = false) : RegisterEffect i s t
  /-- Every TRAP but GETC and IN: nothing beside the TRAP's entry (D14). -/
  | entered {t : State} (hkept : CpuKept s.trapEntry t) (hsets : setsCond i = false) : RegisterEffect i s t

section
variable {i : Instr} (s : State)

theorem getcRoutine_registerEffect (hwritten : writtenReg i = some 0) (hsets : setsCond i = true) :
    HoldsNext (RegisterEffect i s) (getcRoutine s.trapEntry) := by
  unfold getcRoutine
  obtain ⟨-, e⟩ | ⟨b, p, -, e⟩ := inRead_cases s.trapEntry <;> rw [e]
  · exact .fault _
  · exact .next (.received ((CpuKept.refl _).setInput p) b hwritten hsets)

theorem inRoutine_registerEffect (hwritten : writtenReg i = some 0) (hsets : setsCond i = true) :
    HoldsNext (RegisterEffect i s) (inRoutine s.trapEntry) := by
  unfold inRoutine
  obtain ⟨-, e⟩ | ⟨b, p, -, e⟩ := inRead_cases (s.trapEntry.outBytes s.trapEntry.params.inPrompt).flush <;>
    simp only [e]
  · exact .fault _
  · exact .next (.received ((((CpuKept.refl _).outBytes _).setInput p).outBytes [b]) b hwritten hsets)

theorem outRoutine_registerEffect (hsets : setsCond i = false) :
    HoldsNext (RegisterEffect i s) (outRoutine s.trapEntry) :=
  .next (.entered ((CpuKept.refl _).outBytes _) hsets)

theorem putsRoutine_registerEffect (w : Word) (hsets : setsCond i = false) :
    HoldsNext (RegisterEffect i s) (putsRoutine w s.trapEntry) :=
  .next (.entered ((CpuKept.refl _).writeString _ _) hsets)

theorem putspRoutine_registerEffect (w : Word) (hsets : setsCond i = false) :
    HoldsNext (RegisterEffect i s) (putspRoutine w s.trapEntry) :=
  .next (.entered ((CpuKept.refl _).writeString _ _) hsets)

theorem haltRoutine_registerEffect (hsets : setsCond i = false) :
    HoldsNext (RegisterEffect i s) (haltRoutine s.trapEntry) :=
  .next (.entered ((CpuKept.refl _).outBytes _).halt hsets)

end

/-- TRAP has the effect of the routine its vector selects, and of none for another vector (R92, R99). -/
theorem execTrap_registerEffect (ign : BitVec 4) (vect : BitVec 8) (s : State) :
    HoldsNext (RegisterEffect (.trap ign vect) s) (execTrap ign vect s) := by
  unfold execTrap
  split
  · exact getcRoutine_registerEffect s rfl rfl
  · exact outRoutine_registerEffect s rfl
  · exact putsRoutine_registerEffect s _ rfl
  · exact inRoutine_registerEffect s rfl rfl
  · exact putspRoutine_registerEffect s _ rfl
  · exact haltRoutine_registerEffect s rfl
  next hgetc _ _ hinChar _ _ =>
    exact .next (.entered (CpuKept.refl _) (by simpa [setsCond] using ⟨hgetc, hinChar⟩))

/-- What an instruction can do to the general registers, the pc and COND. -/
theorem exec_registerEffect (i : Instr) (s : State) : HoldsNext (RegisterEffect i s) (exec i s) := by
  have hs := CpuKept.refl s
  cases i with
  | br nzp off =>
    refine .next ?_
    split
    · exact .jumped _ rfl rfl
    · exact .kept hs rfl
  | addReg | addImm | andReg | andImm | notReg | lea => exact .next (.result hs _ _ rfl rfl)
  | ld | ldr => exact .next (.result (hs.touch _) _ _ rfl rfl)
  | ldi => exact .next (.result ((hs.touch _).touch _) _ _ rfl rfl)
  | st | str => exact .next (.kept (hs.memWrite _ _) rfl)
  | sti => exact .next (.kept ((hs.touch _).memWrite _ _) rfl)
  | jsr => exact .next (.linked _ rfl rfl rfl)
  | jsrr _ base _ =>
    show HoldsNext _ (execJsrr base s)
    unfold execJsrr
    split <;> exact .next (.linked _ rfl rfl rfl)
  | jmp | ret => exact .next (.jumped _ rfl rfl)
  | reserved1000 | res => exact .next (.kept (hs.raiseFault _) rfl)
  | trap ign vect => exact execTrap_registerEffect ign vect s
  | getc => exact getcRoutine_registerEffect s rfl rfl
  | out => exact outRoutine_registerEffect s rfl
  | puts => exact putsRoutine_registerEffect s _ rfl
  | inChar => exact inRoutine_registerEffect s rfl rfl
  | putsp => exact putspRoutine_registerEffect s _ rfl
  | halt => exact haltRoutine_registerEffect s rfl

/-- Settles O55: a kind of effect that writes a register names it in the table, and a TRAP's entry writes none at
the default of `TRAP_LINKS_R7`. -/
theorem onlyTheNamedRegisterIsWritten : Obligations.OnlyTheNamedRegisterIsWritten := by
  intro i s t hlinks ht _ r hr
  have hentry : s.trapEntry = s := trapEntry_eq s hlinks
  cases exec_registerEffect i s t ht with
  | result hkept dr v hwritten =>
    have hne : r ≠ dr := fun e => hr (e ▸ hwritten)
    rw [writeResult_reg, if_neg hne, hkept.reg]
  | received hkept b hwritten =>
    have hne : r ≠ 0 := fun e => hr (e ▸ hwritten)
    rw [receiveChar_reg, if_neg hne, hkept.reg, hentry]
  | linked target hwritten =>
    have hne : r ≠ 7 := fun e => hr (e ▸ hwritten)
    rw [setPc_reg, link_reg, if_neg hne]
  | jumped => rfl
  | kept hkept => exact hkept.reg r
  | entered hkept => rw [hkept.reg, hentry]

/-- An instruction that does not run SetCC leaves COND alone, the link writing none (D12). -/
theorem exec_cond_of_not_setsCond {i : Instr} {s t : State} (hlink : s.params.linkSetsCc = false)
    (ht : exec i s = .next t) (hno : setsCond i = false) : t.cond = s.cond := by
  cases exec_registerEffect i s t ht with
  | result _ _ _ _ hsets | received _ _ _ hsets => rw [hsets] at hno; cases hno
  | linked => rw [setPc_cond, link_cond, hlink]; rfl
  | jumped => rfl
  | kept hkept => exact hkept.cond
  | entered hkept => exact hkept.cond.trans (trapEntry_cond s)

/-- An instruction that runs SetCC does so on the register it writes, GETC and IN among them (D13). -/
theorem exec_cond_of_setsCond {i : Instr} {s t : State} {r : Reg} (hin : s.params.trapInSetsCc = true)
    (ht : exec i s = .next t) (hyes : setsCond i = true) (hr : writtenReg i = some r) :
    t.cond = condOf (t.reg r) := by
  cases exec_registerEffect i s t ht with
  | result _ dr v hwritten =>
    obtain rfl : dr = r := Option.some.inj (hwritten.symm.trans hr)
    rw [writeResult_cond, writeResult_reg_self]
  | received hkept b hwritten =>
    obtain rfl : 0 = r := Option.some.inj (hwritten.symm.trans hr)
    rw [receiveChar_cond, receiveChar_reg, hkept.params, trapEntry_params, hin]; rfl
  | linked _ _ hsets | jumped _ hsets | kept _ hsets | entered _ hsets => rw [hsets] at hyes; cases hyes

/-- Settles O56. -/
theorem onlyTheNamedInstructionsSetCond : Obligations.OnlyTheNamedInstructionsSetCond := by
  rintro i s t ⟨-, hlink, hin, -⟩ ht -
  exact ⟨exec_cond_of_not_setsCond hlink ht, fun _ => exec_cond_of_setsCond hin ht⟩

/-- Settles O58: the kinds of effect that write the pc are those of the control transfers. -/
theorem onlyControlTransfersChangeThePc : Obligations.OnlyControlTransfersChangeThePc := by
  intro i s t ht _ hno
  cases exec_registerEffect i s t ht with
  | result hkept => exact hkept.pc
  | received hkept b => rw [receiveChar_pc, hkept.pc, trapEntry_pc]
  | linked _ _ _ htransfers | jumped _ _ htransfers => rw [htransfers] at hno; cases hno
  | kept hkept => exact hkept.pc
  | entered hkept => exact hkept.pc.trans (trapEntry_pc s)

end Sys2Proof.Machine

/-! ### The canonical form of memory -/

namespace Sys2Proof.Machine

theorem read_cons_self (a : Nat) (v : Word) (m : Memory) : Memory.read ((a, v) :: m) a = v := if_pos rfl

theorem read_cons_ne {a b : Nat} (v : Word) (m : Memory) (h : b ≠ a) :
    Memory.read ((a, v) :: m) b = m.read b := if_neg h

section
variable {a b : Nat} {v w : Word} {m n : Memory}

theorem above_of_wf_cons (h : Memory.wf ((a, v) :: m)) : ∀ c ∈ m, a < c.1 := (List.pairwise_cons.mp h.1).1

theorem ne_zero_of_wf_cons (h : Memory.wf ((a, v) :: m)) : v ≠ 0x0000#16 := (h.2 _ List.mem_cons_self).2

theorem wf_of_wf_cons (h : Memory.wf ((a, v) :: m)) : m.wf :=
  ⟨(List.pairwise_cons.mp h.1).2, fun c hc => h.2 c (List.mem_cons_of_mem _ hc)⟩

/-- The rest of a canonical memory reads 0x0000 at the address of its first word. -/
theorem read_tail_of_wf_cons (h : Memory.wf ((a, v) :: m)) : m.read a = 0x0000#16 :=
  read_below (above_of_wf_cons h)

/-- Of two canonical memories that read the same, the second lists its first word no later than the first does: below
its own first word it reads 0x0000. -/
theorem first_le_of_reads_eq (hm : Memory.wf ((a, v) :: m)) (hn : Memory.wf ((b, w) :: n))
    (h : ∀ x, Memory.read ((a, v) :: m) x = Memory.read ((b, w) :: n) x) : b ≤ a := by
  by_contra hlt
  have hbelow : ∀ c ∈ (b, w) :: n, a < c.1 := by
    intro c hc
    rcases List.mem_cons.mp hc with rfl | hc
    · exact not_le.mp hlt
    · exact (not_le.mp hlt).trans (above_of_wf_cons hn c hc)
  apply ne_zero_of_wf_cons hm
  calc v = Memory.read ((a, v) :: m) a := (read_cons_self a v m).symm
    _ = Memory.read ((b, w) :: n) a := h a
    _ = 0x0000#16 := read_below hbelow

/-- A canonical memory that reads 0x0000 everywhere lists no word. -/
theorem eq_nil_of_reads_zero (hm : m.wf) (h : ∀ x, m.read x = 0x0000#16) : m = [] := by
  cases m with
  | nil => rfl
  | cons c rest => exact absurd ((read_cons_self c.1 c.2 rest).symm.trans (h c.1)) (ne_zero_of_wf_cons hm)

end

/-- Settles O24: the first words of the two lists stand at one address and are equal, and without them the lists
still read the same. -/
theorem equalReadingsMakeEqualMemories : Obligations.EqualReadingsMakeEqualMemories := by
  intro m
  induction m with
  | nil => exact fun n _ hn h => (eq_nil_of_reads_zero hn fun x => (h x).symm).symm
  | cons c m ih =>
    obtain ⟨a, v⟩ := c
    rintro (_ | ⟨⟨b, w⟩, n⟩) hm hn h
    · exact eq_nil_of_reads_zero hm h
    · obtain rfl : a = b :=
        le_antisymm (first_le_of_reads_eq hn hm fun x => (h x).symm) (first_le_of_reads_eq hm hn h)
      obtain rfl : v = w := by simpa only [read_cons_self] using h a
      have htail : ∀ x, Memory.read m x = Memory.read n x := by
        intro x
        by_cases hx : x = a
        · rw [hx, read_tail_of_wf_cons hm, read_tail_of_wf_cons hn]
        · simpa only [read_cons_ne v _ hx] using h x
      rw [ih n (wf_of_wf_cons hm) (wf_of_wf_cons hn) htail]

end Sys2Proof.Machine

/-! ### The load port writes memory alone -/

namespace Sys2Proof.Machine

theorem loadWords_eq (s : State) (origin : Word) (ws : List Word) :
    s.loadWords origin ws = { s with mem := (s.loadWords origin ws).mem } := by
  induction ws generalizing s origin with
  | nil => rfl
  | cons w rest ih =>
    unfold State.loadWords
    split
    · rfl
    · exact ih (s.memWrite origin w) (origin + 1#16)

theorem loadImage_ready {s t : State} {f : ImageFile} (h : s.loadImage f = .ready t) : t = { s with mem := t.mem } := by
  unfold State.loadImage at h
  split at h <;> cases h
  exact loadWords_eq _ _ _

theorem loadImages_ready {s t : State} {images : List ImageFile} (h : s.loadImages images = .ready t) :
    t = { s with mem := t.mem } := by
  induction images generalizing s with
  | nil => cases h; rfl
  | cons f rest ih =>
    unfold State.loadImages at h
    split at h
    next u hu =>
      calc t = { u with mem := t.mem } := ih h
        _ = { s with mem := t.mem } := by rw [loadImage_ready hu]
    next => cases h

theorem boot_ready {p : Params} {input : InputPort} {images : List ImageFile} {s : State}
    (h : boot p input images = .ready s) : s = { State.resetWith p with input := input, mem := s.mem } :=
  loadImages_ready h

/-- Settles O10: loading writes memory alone, so the pc is the one of construction. -/
theorem bootStartsAtTheEntryPoint : Obligations.BootStartsAtTheEntryPoint := by
  intro p input images s h
  rw [boot_ready h]
  rfl

end Sys2Proof.Machine

/-! ### Reads, the poll, and plain stores -/

namespace Sys2Proof.Machine

theorem memRead_kbsr (s : State) : s.memRead s.params.kbsrAddr = (s.poll.rawRead s.params.kbsrAddr, s.poll) := by
  rw [State.memRead, touch_kbsr]

theorem memRead_other {s : State} {a : Word} (h : a ≠ s.params.kbsrAddr) : s.memRead a = (s.rawRead a, s) := by
  rw [State.memRead, touch_other s a h]

/-- Settles O21. -/
theorem onlyStatusReadsPoll : Obligations.OnlyStatusReadsPoll := by
  intro s a
  refine ⟨?_, memRead_other⟩
  rintro rfl
  exact memRead_kbsr s

theorem poll_eq_of_byte {s : State} {b : Byte} {p : InputPort} (h : s.input.poll = (some b, p)) :
    s.poll =
      (({ s with input := p }).memWrite s.params.kbsrAddr kbsrReady).memWrite s.params.kbdrAddr (zextByte b) := by
  simp only [State.poll, h]

theorem poll_eq_of_no_byte {s : State} {p : InputPort} (h : s.input.poll = (none, p)) :
    s.poll = ({ s with input := p }).memWrite s.params.kbsrAddr 0x0000#16 := by
  simp only [State.poll, h]

theorem setInput_rawRead (s : State) (p : InputPort) (a : Word) :
    { s with input := p }.rawRead a = s.rawRead a := rfl

theorem toNat_zextByte (b : Byte) : (zextByte b).toNat = b.toNat := BitVec.toNat_setWidth_of_le (by decide)

/-- The store of KBDR does not overwrite KBSR, which stands at another address (R8). -/
theorem poll_of_byte {s : State} {b : Byte} {p : InputPort} (hwf : s.params.wf) (h : s.input.poll = (some b, p)) :
    s.poll.rawRead s.params.kbsrAddr = kbsrReady ∧ s.poll.rawRead s.params.kbdrAddr = zextByte b ∧
      s.poll.input = p := by
  obtain ⟨hne, -, -⟩ := hwf
  rw [poll_eq_of_byte h]
  refine ⟨?_, memWrite_rawRead_self _ _ _, rfl⟩
  rw [memWrite_rawRead, if_neg hne, memWrite_rawRead_self]

theorem poll_of_no_byte {s : State} {p : InputPort} (h : s.input.poll = (none, p)) :
    s.poll.rawRead s.params.kbsrAddr = 0x0000#16 ∧ MemKept [s.params.kbsrAddr] s s.poll ∧ s.poll.input = p := by
  rw [poll_eq_of_no_byte h]
  refine ⟨memWrite_rawRead_self _ _ _, fun a ha => ?_, rfl⟩
  rw [memWrite_rawRead, if_neg (by simpa using ha), setInput_rawRead]

theorem poll_memKept (s : State) : MemKept [s.params.kbsrAddr, s.params.kbdrAddr] s s.poll := by
  intro a ha
  simp only [List.mem_cons, List.not_mem_nil, or_false, not_or] at ha
  exact poll_rawRead_other s ha.1 ha.2

/-- Settles O20. -/
theorem pollUpdatesTheKeyboardWords : Obligations.PollUpdatesTheKeyboardWords := by
  intro s hwf
  refine ⟨fun b p h => ?_, fun p h => poll_of_no_byte h, fun r _ => poll_reg s r, poll_cond s, poll_pc s,
    poll_output s, poll_run s, poll_params s⟩
  obtain ⟨hkbsr, hkbdr, hinput⟩ := poll_of_byte hwf h
  exact ⟨hkbsr, by rw [hkbdr, toNat_zextByte], poll_memKept s, hinput⟩

/-- A read of the status address answers one of two words, whatever was stored there. -/
theorem memRead_kbsr_values {s : State} (hwf : s.params.wf) :
    (s.memRead s.params.kbsrAddr).1 = 0x0000#16 ∨ (s.memRead s.params.kbsrAddr).1 = 0x8000#16 := by
  rw [memRead_kbsr]
  obtain ⟨b, p, h, -⟩ | ⟨p, h, -⟩ := poll_cases s
  · exact .inr (poll_of_byte hwf h).1
  · exact .inl (poll_of_no_byte h).1

theorem memWrite_stored (s : State) (a v : Word) : Stored a v s (s.memWrite a v) := by
  refine ⟨memWrite_rawRead_self s a v, fun b hb => ?_, fun _ _ => rfl, rfl, rfl, ⟨rfl, rfl⟩, ⟨rfl, rfl⟩⟩
  rw [memWrite_rawRead, if_neg (by simpa using hb)]

/-- Settles O22. -/
theorem statusStoreIsNeverReadBack : Obligations.StatusStoreIsNeverReadBack := by
  intro s a v hwf
  refine ⟨memWrite_stored s a v, ?_, fun hne => ?_⟩
  · rintro rfl
    exact memRead_kbsr_values (s := s.memWrite s.params.kbsrAddr v) hwf
  · rw [memRead_other (s := s.memWrite a v) hne]
    exact memWrite_rawRead_self s a v

/-- Settles O27. -/
theorem pointerAtStatusGoesToTwoAddresses : Obligations.PointerAtStatusGoesToTwoAddresses := by
  intro s off hwf hptr
  rw [indirect9, hptr]
  exact memRead_kbsr_values hwf

end Sys2Proof.Machine

/-! ### Image files: their bytes, their words, and where the words go -/

namespace Sys2Proof.Machine

theorem toNat_wordOfBytes (hi lo : Byte) : (wordOfBytes hi lo).toNat = hi.toNat * 256 + lo.toNat := by
  rw [wordOfBytes, BitVec.toNat_append, ← Nat.shiftLeft_add_eq_or_of_lt lo.isLt, Nat.shiftLeft_eq]

theorem length_wordsOfBytes : ∀ bytes : List Byte, (wordsOfBytes bytes).length = bytes.length / 2
  | [] | [_] => by simp [wordsOfBytes]
  | _ :: _ :: rest => by
    simp only [wordsOfBytes, List.length_cons, length_wordsOfBytes rest]
    omega

/-- Word `k` is made of the bytes `2k` and `2k + 1`, the high one first. -/
theorem getElem?_wordsOfBytes {bytes : List Byte} {k : Nat} {hi lo : Byte} (hhi : bytes[2 * k]? = some hi)
    (hlo : bytes[2 * k + 1]? = some lo) : (wordsOfBytes bytes)[k]? = some (wordOfBytes hi lo) := by
  induction k generalizing bytes with
  | zero =>
    match bytes, hhi, hlo with
    | _ :: _ :: _, rfl, rfl => rfl
  | succ k ih =>
    match bytes, hhi, hlo with
    | _ :: _ :: _, hhi, hlo => exact ih hhi hlo

/-- Settles O12. -/
theorem imageIsBigEndian : Obligations.ImageIsBigEndian := fun _ b0 b1 rest =>
  ⟨wordOfBytes b0 b1, wordsOfBytes rest, rfl, toNat_wordOfBytes b0 b1, length_wordsOfBytes rest,
    fun _ hi lo hhi hlo => ⟨wordOfBytes hi lo, getElem?_wordsOfBytes hhi hlo, toNat_wordOfBytes hi lo⟩⟩

/-- What an address reads after a load: from the origin up the words loaded, as far as they go, and elsewhere the
word that stood there. -/
theorem loadWords_rawRead (s : State) (origin : Word) (ws : List Word) (a : Word) :
    (s.loadWords origin ws).rawRead a =
      if origin.toNat ≤ a.toNat then ws[a.toNat - origin.toNat]?.getD (s.rawRead a) else s.rawRead a := by
  induction ws generalizing s origin with
  | nil => simp [State.loadWords]
  | cons w rest ih =>
    unfold State.loadWords
    split
    next htop =>
      have hle : a.toNat ≤ origin.toNat := by rw [htop]; exact Nat.le_of_lt_succ a.isLt
      rw [memWrite_rawRead]
      rcases hle.eq_or_lt with heq | hlt
      · simp [BitVec.eq_of_toNat_eq heq]
      · have hne : a ≠ origin := fun e => hlt.ne (congrArg BitVec.toNat e)
        rw [if_neg hne, if_neg (by omega)]
    next htop =>
      have hnext : (origin + 1#16).toNat = origin.toNat + 1 := by bv_omega
      rw [ih, memWrite_rawRead, hnext]
      rcases lt_trichotomy a.toNat origin.toNat with hlt | heq | hgt
      · have hne : a ≠ origin := fun e => hlt.ne (congrArg BitVec.toNat e)
        rw [if_neg hne, if_neg (by omega), if_neg (by omega)]
      · simp [BitVec.eq_of_toNat_eq heq]
      · have hne : a ≠ origin := fun e => hgt.ne' (congrArg BitVec.toNat e)
        have hidx : a.toNat - origin.toNat = a.toNat - (origin.toNat + 1) + 1 := by omega
        rw [if_neg hne, if_pos (by omega), if_pos (by omega), hidx, List.getElem?_cons_succ]

theorem loadWords_rawRead_word {s : State} {origin w : Word} {ws : List Word} {k : Nat} (hw : ws[k]? = some w)
    (hk : origin.toNat + k ≤ 0xFFFF) : (s.loadWords origin ws).rawRead (origin + BitVec.ofNat 16 k) = w := by
  have hadd : (origin + BitVec.ofNat 16 k).toNat = origin.toNat + k := by
    rw [BitVec.toNat_add, BitVec.toNat_ofNat]; omega
  rw [loadWords_rawRead, hadd, if_pos (Nat.le_add_right _ _), Nat.add_sub_cancel_left, hw, Option.getD_some]

theorem loadWords_rawRead_outside {s : State} {origin a : Word} {ws : List Word}
    (h : a.toNat < origin.toNat ∨ origin.toNat + ws.length ≤ a.toNat) :
    (s.loadWords origin ws).rawRead a = s.rawRead a := by
  rw [loadWords_rawRead]
  obtain h | h := h
  · rw [if_neg (by omega)]
  · rw [List.getElem?_eq_none (by omega), Option.getD_none, ite_self]

/-- Settles O13. -/
theorem loadedWordsStandFromTheOrigin : Obligations.LoadedWordsStandFromTheOrigin := by
  intro s origin ws
  refine ⟨fun _ _ hw hk => loadWords_rawRead_word hw hk, fun _ h => loadWords_rawRead_outside h, ?_⟩
  rw [loadWords_eq]
  exact ⟨fun _ _ => rfl, rfl, rfl, ⟨rfl, rfl⟩, rfl, rfl⟩

theorem contents_of_loadImage_ready {s t : State} {f : ImageFile} (h : s.loadImage f = .ready t) :
    ∃ b0 b1 rest, f = .contents (b0 :: b1 :: rest) := by
  unfold State.loadImage at h
  split at h
  next => cases h
  next b0 b1 rest => exact ⟨b0, b1, rest, rfl⟩
  next => cases h

theorem contents_of_loadImages_ready {s t : State} {images : List ImageFile} (h : s.loadImages images = .ready t) :
    ∀ f ∈ images, ∃ b0 b1 rest, f = .contents (b0 :: b1 :: rest) := by
  induction images generalizing s with
  | nil => nofun
  | cons f rest ih =>
    unfold State.loadImages at h
    split at h
    next u hu => exact List.forall_mem_cons.mpr ⟨contents_of_loadImage_ready hu, ih h⟩
    next => cases h

/-- Settles O14: a load that succeeds has found an origin in each of its images. -/
theorem loadFailureStartsNoRun : Obligations.LoadFailureStartsNoRun := by
  intro p input before after f hf s h
  obtain ⟨b0, b1, rest, rfl⟩ := contents_of_loadImages_ready h f (by simp)
  obtain hf | ⟨bytes, hf, hshort⟩ := hf <;> cases hf
  simp at hshort

end Sys2Proof.Machine

/-! ### What becomes of memory under every instruction

The reads of an instruction leave the state `s.afterReads i`, and memory is then that state's, but for the one word
of a store. -/

namespace Sys2Proof.Machine

/-- The state after the side effects of reading a list of addresses, one after the other. -/
def State.touchAll (s : State) (addrs : List Word) : State := addrs.foldl State.touch s

/-- The state after the reads an instruction makes through `MemRead` (R41). -/
def State.afterReads (s : State) (i : Instr) : State := s.touchAll (readAddrs i s)

section
variable (s : State) (addrs : List Word)

@[simp] theorem touchAll_pc : (s.touchAll addrs).pc = s.pc := by
  induction addrs generalizing s with
  | nil => rfl
  | cons a rest ih => exact (ih (s.touch a)).trans (touch_pc s a)

@[simp] theorem touchAll_run : (s.touchAll addrs).run = s.run := by
  induction addrs generalizing s with
  | nil => rfl
  | cons a rest ih => exact (ih (s.touch a)).trans (touch_run s a)

@[simp] theorem touchAll_params : (s.touchAll addrs).params = s.params := by
  induction addrs generalizing s with
  | nil => rfl
  | cons a rest ih => exact (ih (s.touch a)).trans (touch_params s a)

/-- Reads change at most the keyboard words, and those only if one of them is of KBSR_ADDR. -/
theorem touchAll_rawRead_other {b : Word}
    (h : s.params.kbsrAddr ∈ addrs → b ≠ s.params.kbsrAddr ∧ b ≠ s.params.kbdrAddr) :
    (s.touchAll addrs).rawRead b = s.rawRead b := by
  induction addrs generalizing s with
  | nil => rfl
  | cons a rest ih =>
    calc (s.touchAll (a :: rest)).rawRead b = ((s.touch a).touchAll rest).rawRead b := rfl
      _ = (s.touch a).rawRead b := ih _ (by rw [touch_params]; exact fun hm => h (List.mem_cons_of_mem a hm))
      _ = s.rawRead b := touch_rawRead_other s a fun e => h (e ▸ List.mem_cons_self)

end

/-- A storing instruction completes with its register's word at its address, and does nothing else after its
reads (R89 to R91). -/
theorem exec_store {i : Instr} {s : State} {ea : Word} (h : storeAddr i s = some ea) :
    ∃ sr, storeSource i = some sr ∧ exec i s = .next ((s.afterReads i).memWrite ea (s.reg sr)) := by
  cases i with
  | st sr off | sti sr off | str sr base off =>
    obtain rfl := Option.some.inj h
    exact ⟨sr, rfl, rfl⟩
  | _ => cases h

theorem writeString_mem (s : State) (f : Word → List Byte) (w : Word) : (s.writeString f w).mem = s.mem := by
  obtain ⟨-, e⟩ | ⟨info, -, e⟩ := writeString_cases s f w <;> rw [e] <;> rfl

theorem getcRoutine_mem (s : State) : HoldsNext (fun t => t.mem = s.mem) (getcRoutine s) := by
  unfold getcRoutine
  obtain ⟨-, e⟩ | ⟨b, p, -, e⟩ := inRead_cases s <;> rw [e]
  · exact .fault _
  · exact .next (receiveChar_mem _ b)

theorem inRoutine_mem (s : State) : HoldsNext (fun t => t.mem = s.mem) (inRoutine s) := by
  unfold inRoutine
  obtain ⟨-, e⟩ | ⟨b, p, -, e⟩ := inRead_cases (s.outBytes s.params.inPrompt).flush <;> simp only [e]
  · exact .fault _
  · exact .next (receiveChar_mem _ b)

/-- No TRAP stores to memory, whatever its vector. -/
theorem execTrap_mem (ign : BitVec 4) (vect : BitVec 8) (s : State) :
    HoldsNext (fun t => t.mem = s.mem) (execTrap ign vect s) := by
  rw [← trapEntry_mem s]
  unfold execTrap
  split
  · exact getcRoutine_mem _
  · exact .next rfl
  · exact .next (writeString_mem _ _ _)
  · exact inRoutine_mem _
  · exact .next (writeString_mem _ _ _)
  · exact .next rfl
  · exact .next rfl

/-- An instruction that stores nothing leaves memory as its reads do. -/
theorem exec_mem_of_no_store {i : Instr} {s : State} (h : storeAddr i s = none) :
    HoldsNext (fun t => t.mem = (s.afterReads i).mem) (exec i s) := by
  cases i with
  | br nzp off => refine .next ?_; split <;> rfl
  | addReg | addImm | andReg | andImm | notReg | lea | ld | ldr | ldi | jmp | ret | reserved1000 | res =>
    exact .next rfl
  | st | sti | str => cases h
  | jsr off => exact .next (link_mem s)
  | jsrr _ base _ =>
    show HoldsNext _ (execJsrr base s)
    unfold execJsrr
    split <;> exact .next (link_mem s)
  | trap ign vect => exact execTrap_mem ign vect s
  | getc ign => exact execTrap_mem ign 0x20#8 s
  | out ign => exact execTrap_mem ign 0x21#8 s
  | puts ign => exact execTrap_mem ign 0x22#8 s
  | inChar ign => exact execTrap_mem ign 0x23#8 s
  | putsp ign => exact execTrap_mem ign 0x24#8 s
  | halt ign => exact execTrap_mem ign 0x25#8 s

theorem rawRead_of_mem_eq {s t : State} (h : t.mem = s.mem) (a : Word) : t.rawRead a = s.rawRead a := by
  rw [State.rawRead, h, State.rawRead]

/-- Settles O57: beside the word of the store there are only the words that the reads change. -/
theorem memoryChangesOnlyByStoresAndPolls : Obligations.MemoryChangesOnlyByStoresAndPolls := by
  intro i s t ht _ a hstore hpoll
  have hreads : (s.afterReads i).rawRead a = s.rawRead a := touchAll_rawRead_other s _ hpoll
  cases hea : storeAddr i s with
  | none => rw [rawRead_of_mem_eq (exec_mem_of_no_store hea t ht), hreads]
  | some ea =>
    obtain ⟨sr, -, he⟩ := exec_store hea
    obtain rfl := Host.Outcome.next.inj (he.symm.trans ht)
    have hne : a ≠ ea := fun e => hstore (e ▸ hea)
    rw [memWrite_rawRead, if_neg hne, hreads]

/-- A running core away from KBSR_ADDR executes the word at its pc, the fetch having no side effect (R68). -/
theorem step_of_running {s : State} (hrun : s.run = .running) (hpc : s.pc ≠ s.params.kbsrAddr) :
    step s = exec (decode (s.rawRead s.pc)) (s.setPc (s.pc + 1#16)) := by
  simp only [step, hrun, State.fetch, memRead_other hpc]

/-- A word stored at the pc is the one the next step executes (R51). -/
theorem step_memWrite_pc {s : State} (v : Word) (hrun : s.run = .running) (hpc : s.pc ≠ s.params.kbsrAddr) :
    step (s.memWrite s.pc v) = exec (decode v) ((s.memWrite s.pc v).setPc (s.pc + 1#16)) := by
  rw [step_of_running (s := s.memWrite s.pc v) hrun hpc, memWrite_pc, memWrite_rawRead_self]

/-- Settles O49: the reads before the store move neither the pc nor the status address. -/
theorem storeIsSeenByTheNextFetch : Obligations.StoreIsSeenByTheNextFetch := by
  intro i sr s hrun hpc hsource haddr
  obtain ⟨sr', hsource', he⟩ := exec_store haddr
  obtain rfl : sr' = sr := Option.some.inj (hsource'.symm.trans hsource)
  have hreads : (s.afterReads i).pc = s.pc := touchAll_pc s _
  rw [← hreads] at he
  refine ⟨_, he, hreads, step_memWrite_pc _ ((touchAll_run s _).trans hrun) ?_⟩
  rw [hreads, State.afterReads, touchAll_params]
  exact hpc

end Sys2Proof.Machine

/-! ### The fields of a word -/

namespace Sys2Proof

/-- Two fields side by side are one wider field. -/
theorem put_field_join (w : Word) {hi lo m n : Nat} (h : hi = lo + n) :
    put (field w hi m) hi ||| put (field w lo n) lo = put (field w lo (m + n)) lo := by
  subst h
  apply BitVec.eq_of_getLsbD_eq
  intro i hi
  simp only [put, field, BitVec.getLsbD_or, BitVec.getLsbD_shiftLeft, BitVec.getLsbD_setWidth,
    BitVec.getLsbD_extractLsb']
  grind

theorem put_field_whole (w : Word) {n : Nat} (h : n = 16) : put (field w 0 n) 0 = w := by
  subst h
  simp [put, field]

/-- A field above a clear bit is one bit wider. -/
theorem put_field_clear_below {w : Word} {hi lo m : Nat} (h : field w lo 1 = 0#1) (hhi : hi = lo + 1) :
    put (field w hi m) hi = put (field w lo (m + 1)) lo := by
  rw [← put_field_join w hhi, h]
  simp [put]

/-- A field is the word's value divided by two to its place, modulo two to its width (R12). -/
theorem field_eq_ofNat (w : Word) (lo k : Nat) : field w lo k = BitVec.ofNat k (w.toNat / 2 ^ lo) := by
  rw [field, BitVec.extractLsb', Nat.shiftRight_eq_div_pow]

theorem field_eq_of_mod {w : Word} {lo k v : Nat} (h : w.toNat / 2 ^ lo % 2 ^ k = v) :
    field w lo k = BitVec.ofNat k v := by
  rw [field_eq_ofNat, ← h]
  exact BitVec.eq_of_toNat_eq (by simp)

theorem opcodeOf_eq_of_div {w : Word} {k : Nat} (h : w.toNat / 4096 = k) : opcodeOf w = BitVec.ofNat 4 k := by
  subst h
  exact field_eq_ofNat w 12 4

theorem ofBits_ofNat (m : Nat) : Reg.ofBits (BitVec.ofNat 3 m) = Fin.ofNat 8 m := rfl

end Sys2Proof

/-! ### The rows of the decoder

`Decodes` lists the rows of the table with what selects each; `decode_row` says that the decoder reads every word
by its row. What a row's word and well-formedness are is then shown row by row. -/

namespace Sys2Proof

open Laws.OpcodeField (opcode)

theorem opcodeOf_encode (i : Instr) : opcodeOf (encode i) = opcode i := by
  open Laws.OpcodeField in
  cases i
  exacts [br .., addReg .., addImm .., ld .., st .., jsr .., jsrr .., andReg .., andImm .., ldr .., str ..,
    reserved1000 .., notReg .., ldi .., sti .., jmp .., res .., lea .., trap .., ret, getc .., out .., puts ..,
    inChar .., putsp .., halt ..]

theorem namedVector_iff (v : BitVec 8) :
    namedVector v = true ↔ v = 0x20#8 ∨ v = 0x21#8 ∨ v = 0x22#8 ∨ v = 0x23#8 ∨ v = 0x24#8 ∨ v = 0x25#8 := by
  simp only [namedVector, Bool.and_eq_true, decide_eq_true_eq]
  bv_omega

theorem trap_wf_iff (ign : BitVec 4) (vect : BitVec 8) :
    Instr.wf (.trap ign vect) = true ↔ namedVector vect = false := by
  simp [Instr.wf]

/-- A term `jmp` is well-formed exactly when its word is not RET's (R71). -/
theorem jmp_wf_iff (ignHi : BitVec 3) (base : Reg) (ignLo : BitVec 6) :
    Instr.wf (.jmp ignHi base ignLo) = true ↔ encode (.jmp ignHi base ignLo) ≠ 0xC1C0#16 := by
  rw [← not_iff_not, not_not]
  constructor
  · intro h
    obtain ⟨⟨rfl, rfl⟩, rfl⟩ : (ignHi = 0 ∧ base = 7) ∧ ignLo = 0 := by simpa [Instr.wf] using h
    decide
  · intro h
    have hhi : field (encode (.jmp ignHi base ignLo)) 9 3 = ignHi := by
      simp [encode, field_put_self, field_put_above, field_put_below]
    have hbase : Reg.ofBits (field (encode (.jmp ignHi base ignLo)) 6 3) = base := by
      simp [encode, field_put_self, field_put_above, field_put_below]
    have hlo : field (encode (.jmp ignHi base ignLo)) 0 6 = ignLo := by
      simp [encode, field_put_self, field_put_below]
    rw [h] at hhi hbase hlo
    subst hhi hbase hlo
    decide

theorem decodeTrap_of_not_named {w : Word} (h : namedVector (field w 0 8) = false) :
    decodeTrap w = .trap (field w 8 4) (field w 0 8) := by
  unfold decodeTrap
  split
  iterate 6 next hv => exact absurd h (by rw [hv]; decide)
  rfl

/-- The decoder finds each field of a well-formed instruction where the encoder put it (R61 to R63). -/
theorem decode_encode {i : Instr} (hwf : i.wf = true) : decode (encode i) = i := by
  have hop := opcodeOf_encode i
  unfold decode
  rw [hop]
  cases i with
  | ret => rfl
  | jmp ignHi base ignLo =>
    have hne := (jmp_wf_iff ignHi base ignLo).mp hwf
    simp only [opcode, decodeJmp, if_neg hne]
    simp [encode, field_put_self, field_put_above, field_put_below]
  | trap ign vect =>
    have hv : field (encode (.trap ign vect)) 0 8 = vect := by simp [encode, field_put_self, field_put_below]
    have hign : field (encode (.trap ign vect)) 8 4 = ign := by
      simp [encode, field_put_self, field_put_above, field_put_below]
    have hnot : namedVector (field (encode (.trap ign vect)) 0 8) = false := by
      rw [hv]; exact (trap_wf_iff ign vect).mp hwf
    exact (decodeTrap_of_not_named hnot).trans (by rw [hv, hign])
  | getc | out | puts | inChar | putsp | halt =>
    simp [opcode, decodeTrap, encode, field_put_self, field_put_above, field_put_below]
  | _ => simp [opcode, encode, field_put_self, field_put_above, field_put_below]

/-- The row of the table that a word has: its opcode, the form bit or vector that selects the row, and the fields
(R60 to R62, R67). -/
inductive Decodes (w : Word) : Instr → Prop
  | br (h : opcodeOf w = 0x0#4) : Decodes w (.br (field w 9 3) (field w 0 9))
  | addReg (h : opcodeOf w = 0x1#4) (hform : field w 5 1 = 0#1) :
      Decodes w (.addReg (Reg.ofBits (field w 9 3)) (Reg.ofBits (field w 6 3)) (field w 3 2) (Reg.ofBits (field w 0 3)))
  | addImm (h : opcodeOf w = 0x1#4) (hform : field w 5 1 = 1#1) :
      Decodes w (.addImm (Reg.ofBits (field w 9 3)) (Reg.ofBits (field w 6 3)) (field w 0 5))
  | ld (h : opcodeOf w = 0x2#4) : Decodes w (.ld (Reg.ofBits (field w 9 3)) (field w 0 9))
  | st (h : opcodeOf w = 0x3#4) : Decodes w (.st (Reg.ofBits (field w 9 3)) (field w 0 9))
  | jsr (h : opcodeOf w = 0x4#4) (hform : field w 11 1 = 1#1) : Decodes w (.jsr (field w 0 11))
  | jsrr (h : opcodeOf w = 0x4#4) (hform : field w 11 1 = 0#1) :
      Decodes w (.jsrr (field w 9 2) (Reg.ofBits (field w 6 3)) (field w 0 6))
  | andReg (h : opcodeOf w = 0x5#4) (hform : field w 5 1 = 0#1) :
      Decodes w (.andReg (Reg.ofBits (field w 9 3)) (Reg.ofBits (field w 6 3)) (field w 3 2) (Reg.ofBits (field w 0 3)))
  | andImm (h : opcodeOf w = 0x5#4) (hform : field w 5 1 = 1#1) :
      Decodes w (.andImm (Reg.ofBits (field w 9 3)) (Reg.ofBits (field w 6 3)) (field w 0 5))
  | ldr (h : opcodeOf w = 0x6#4) :
      Decodes w (.ldr (Reg.ofBits (field w 9 3)) (Reg.ofBits (field w 6 3)) (field w 0 6))
  | str (h : opcodeOf w = 0x7#4) :
      Decodes w (.str (Reg.ofBits (field w 9 3)) (Reg.ofBits (field w 6 3)) (field w 0 6))
  | reserved1000 (h : opcodeOf w = 0x8#4) : Decodes w (.reserved1000 (field w 0 12))
  | notReg (h : opcodeOf w = 0x9#4) :
      Decodes w (.notReg (Reg.ofBits (field w 9 3)) (Reg.ofBits (field w 6 3)) (field w 0 6))
  | ldi (h : opcodeOf w = 0xA#4) : Decodes w (.ldi (Reg.ofBits (field w 9 3)) (field w 0 9))
  | sti (h : opcodeOf w = 0xB#4) : Decodes w (.sti (Reg.ofBits (field w 9 3)) (field w 0 9))
  | jmp (h : opcodeOf w = 0xC#4) (hret : w ≠ 0xC1C0#16) :
      Decodes w (.jmp (field w 9 3) (Reg.ofBits (field w 6 3)) (field w 0 6))
  | ret (hret : w = 0xC1C0#16) : Decodes w .ret
  | res (h : opcodeOf w = 0xD#4) : Decodes w (.res (field w 0 12))
  | lea (h : opcodeOf w = 0xE#4) : Decodes w (.lea (Reg.ofBits (field w 9 3)) (field w 0 9))
  | trap (h : opcodeOf w = 0xF#4) (hnot : namedVector (field w 0 8) = false) :
      Decodes w (.trap (field w 8 4) (field w 0 8))
  | getc (h : opcodeOf w = 0xF#4) (hv : field w 0 8 = 0x20#8) : Decodes w (.getc (field w 8 4))
  | out (h : opcodeOf w = 0xF#4) (hv : field w 0 8 = 0x21#8) : Decodes w (.out (field w 8 4))
  | puts (h : opcodeOf w = 0xF#4) (hv : field w 0 8 = 0x22#8) : Decodes w (.puts (field w 8 4))
  | inChar (h : opcodeOf w = 0xF#4) (hv : field w 0 8 = 0x23#8) : Decodes w (.inChar (field w 8 4))
  | putsp (h : opcodeOf w = 0xF#4) (hv : field w 0 8 = 0x24#8) : Decodes w (.putsp (field w 8 4))
  | halt (h : opcodeOf w = 0xF#4) (hv : field w 0 8 = 0x25#8) : Decodes w (.halt (field w 8 4))

/-- The fields of a row, the opcode and the form bit or vector among them, make up the whole word. -/
theorem Decodes.encode_eq {w : Word} {i : Instr} (hi : Decodes w i) : encode i = w := by
  cases hi with
  | ret hret => exact hret.symm
  | addReg h hform | andReg h hform | jsrr h hform =>
    simp only [encode, toBits_ofBits, ← h, opcodeOf, put_field_clear_below hform, put_field_join, put_field_whole]
  | addImm h hsel | andImm h hsel | jsr h hsel | getc h hsel | out h hsel | puts h hsel | inChar h hsel
  | putsp h hsel | halt h hsel =>
    simp only [encode, toBits_ofBits, ← h, ← hsel, opcodeOf, put_field_join, put_field_whole]
  | br h | ld h | st h | ldr h | str h | reserved1000 h | notReg h | ldi h | sti h | jmp h | res h | lea h | trap h =>
    simp only [encode, toBits_ofBits, ← h, opcodeOf, put_field_join, put_field_whole]

theorem Decodes.wf {w : Word} {i : Instr} (hi : Decodes w i) : i.wf = true := by
  have he := hi.encode_eq
  cases hi with
  | jmp h hret => exact (jmp_wf_iff _ _ _).mpr fun e => hret (he.symm.trans e)
  | trap h hnot => exact (trap_wf_iff _ _).mpr hnot
  | _ => rfl

theorem decodeTrap_row {w : Word} (h : opcodeOf w = 0xF#4) : Decodes w (decodeTrap w) := by
  unfold decodeTrap
  split
  next hv => exact .getc h hv
  next hv => exact .out h hv
  next hv => exact .puts h hv
  next hv => exact .inChar h hv
  next hv => exact .putsp h hv
  next hv => exact .halt h hv
  next h20 h21 h22 h23 h24 h25 =>
    refine .trap h (Bool.eq_false_iff.mpr fun hnamed => ?_)
    rcases (namedVector_iff _).mp hnamed with e | e | e | e | e | e
    all_goals contradiction

theorem decode_row (w : Word) : Decodes w (decode w) := by
  unfold decode
  split
  next h => exact .br h
  next h =>
    split
    next hform => exact .addImm h hform
    next hform => exact .addReg h ((BitVec.eq_zero_or_eq_one _).resolve_right hform)
  next h => exact .ld h
  next h => exact .st h
  next h =>
    split
    next hform => exact .jsr h hform
    next hform => exact .jsrr h ((BitVec.eq_zero_or_eq_one _).resolve_right hform)
  next h =>
    split
    next hform => exact .andImm h hform
    next hform => exact .andReg h ((BitVec.eq_zero_or_eq_one _).resolve_right hform)
  next h => exact .ldr h
  next h => exact .str h
  next h => exact .reserved1000 h
  next h => exact .notReg h
  next h => exact .ldi h
  next h => exact .sti h
  next h =>
    unfold decodeJmp
    split
    next hret => exact .ret hret
    next hret => exact .jmp h hret
  next h => exact .res h
  next h => exact .lea h
  next =>
    refine decodeTrap_row ?_
    simp only [imp_false] at *
    bv_omega

theorem decode_eq_of_row {w : Word} {i : Instr} (hi : Decodes w i) : decode w = i := by
  rw [← hi.encode_eq, decode_encode hi.wf]

/-- Settles O2: each clause's conditions select the row, whose fields are then the clause's numbers. -/
theorem fieldsAreReadFromTheirBits : Obligations.FieldsAreReadFromTheirBits := by
  rintro w _ rfl
  have op {k : Nat} (h : w.toNat / 4096 = k) : opcodeOf w = BitVec.ofNat 4 k := opcodeOf_eq_of_div h
  have bit5 {k : Nat} (h : w.toNat / 32 % 2 = k) : field w 5 1 = BitVec.ofNat 1 k := field_eq_of_mod h
  have bit11 {k : Nat} (h : w.toNat / 2048 % 2 = k) : field w 11 1 = BitVec.ofNat 1 k := field_eq_of_mod h
  have vect {k : Nat} (h : w.toNat % 256 = k) : field w 0 8 = BitVec.ofNat 8 k := field_eq_of_mod (by simpa using h)
  have notNamed (h : w.toNat % 256 < 0x20 ∨ 0x25 < w.toNat % 256) : namedVector (field w 0 8) = false := by
    simp only [namedVector, vect rfl, BitVec.toNat_ofNat, Bool.and_eq_false_iff, decide_eq_false_iff_not]
    omega
  have row {i j : Instr} (hi : Decodes w i) (e : i = j) : decode w = j := e ▸ decode_eq_of_row hi
  refine ⟨fun h => row (.br (op h)) ?_,
    fun h hb => row (.addReg (op h) (bit5 hb)) ?_,
    fun h hb => row (.addImm (op h) (bit5 hb)) ?_,
    fun h => row (.ld (op h)) ?_,
    fun h => row (.st (op h)) ?_,
    fun h hb => row (.jsr (op h) (bit11 hb)) ?_,
    fun h hb => row (.jsrr (op h) (bit11 hb)) ?_,
    fun h hb => row (.andReg (op h) (bit5 hb)) ?_,
    fun h hb => row (.andImm (op h) (bit5 hb)) ?_,
    fun h => row (.ldr (op h)) ?_,
    fun h => row (.str (op h)) ?_,
    fun h => row (.reserved1000 (op h)) ?_,
    fun h => row (.notReg (op h)) ?_,
    fun h => row (.ldi (op h)) ?_,
    fun h => row (.sti (op h)) ?_,
    fun h hne => row (.jmp (op h) fun e => hne (congrArg BitVec.toNat e)) ?_,
    fun h => decode_eq_of_row (.ret (BitVec.eq_of_toNat_eq h)),
    fun h => row (.res (op h)) ?_,
    fun h => row (.lea (op h)) ?_,
    fun h hv => row (.trap (op h) (notNamed hv)) ?_,
    fun h hv => row (.getc (op h) (vect hv)) ?_,
    fun h hv => row (.out (op h) (vect hv)) ?_,
    fun h hv => row (.puts (op h) (vect hv)) ?_,
    fun h hv => row (.inChar (op h) (vect hv)) ?_,
    fun h hv => row (.putsp (op h) (vect hv)) ?_,
    fun h hv => row (.halt (op h) (vect hv)) ?_⟩
  all_goals simp only [field_eq_ofNat, ofBits_ofNat, Nat.reducePow, Nat.div_one]

/-- Settles O3. -/
theorem decodeOfEncodeIsIdentity : Obligations.DecodeOfEncodeIsIdentity := fun _ hwf => decode_encode hwf

/-- Settles O4: the row of the word is well-formed and has the word; another such instruction would be decoded
from it too. -/
theorem everyWordIsOneInstruction : Obligations.EveryWordIsOneInstruction := fun w =>
  ⟨(decode_row w).wf, (decode_row w).encode_eq, fun _ hwf he => he ▸ (decode_encode hwf).symm⟩

end Sys2Proof

/-! ### The run state under every instruction

`exec_runEffect` says once, instruction by instruction, what becomes of the run state. -/

namespace Sys2Proof.Machine

open Laws.OpcodeField (opcode)

theorem opcodeOf_eq_opcode_decode (w : Word) : opcodeOf w = opcode (decode w) := by
  rw [← opcodeOf_encode, (decode_row w).encode_eq]

theorem isReserved_iff_opcode (i : Instr) : isReserved i = true ↔ opcode i = 0b1000#4 ∨ opcode i = 0b1101#4 := by
  cases i <;> simp [isReserved, opcode]

/-- What an instruction can do to the run state, with what the table of R104 says of an instruction that does so. -/
inductive RunEffect (i : Instr) (s t : State) : Prop
  /-- The core goes on. -/
  | kept (hrun : t.run = s.run) (hreserved : isReserved i = false) (hhalt : trapVector i ≠ some 0x25#8)
  /-- HALT. -/
  | halted (hrun : t.run = .halted) (hhalt : trapVector i = some 0x25#8)
  /-- The reserved opcodes. -/
  | undefined (hrun : t.run = .faulted ⟨.undefinedOpcode, encode i, s.pc - 1#16⟩) (hreserved : isReserved i = true)
  /-- PUTS and PUTSP of a string that does not end. -/
  | string (info : FaultInfo) (hrun : t.run = .faulted info) (hword : info.word = encode i)
      (hcause : info.cause = .stringOverrun ∨ info.cause = .stringThroughDevice)
      (hputs : trapVector i = some 0x22#8 ∨ trapVector i = some 0x24#8)

theorem stringFault_cases {kbsr word : Word} {e : StringEnd} {info : FaultInfo}
    (h : stringFault kbsr word e = some info) :
    info.word = word ∧ (info.cause = .stringOverrun ∨ info.cause = .stringThroughDevice) := by
  cases e with
  | terminated => cases h
  | overrun => cases h; exact ⟨rfl, .inl rfl⟩
  | throughDevice => cases h; exact ⟨rfl, .inr rfl⟩

/-- Writing a string leaves the run state alone or stops the core with a model-only fault that records the word. -/
theorem writeString_run (s : State) (f : Word → List Byte) (w : Word) :
    (s.writeString f w).run = s.run ∨ ∃ info, (s.writeString f w).run = .faulted info ∧ info.word = w ∧
      (info.cause = .stringOverrun ∨ info.cause = .stringThroughDevice) := by
  obtain ⟨-, e⟩ | ⟨info, hfault, e⟩ := writeString_cases s f w <;> rw [e]
  · exact .inl rfl
  · exact .inr ⟨info, rfl, stringFault_cases hfault⟩

theorem getcRoutine_run (s : State) : HoldsNext (fun t => t.run = s.run) (getcRoutine s) := by
  unfold getcRoutine
  obtain ⟨-, e⟩ | ⟨b, p, -, e⟩ := inRead_cases s <;> rw [e]
  · exact .fault _
  · exact .next (receiveChar_run _ b)

theorem inRoutine_run (s : State) : HoldsNext (fun t => t.run = s.run) (inRoutine s) := by
  unfold inRoutine
  obtain ⟨-, e⟩ | ⟨b, p, -, e⟩ := inRead_cases (s.outBytes s.params.inPrompt).flush <;> simp only [e]
  · exact .fault _
  · exact .next (receiveChar_run _ b)

/-- TRAP stops the core by HALT, and by a string that does not end (R98, R107). The instruction is any of the rows
that a TRAP word has. -/
theorem execTrap_runEffect {i : Instr} (ign : BitVec 4) (vect : BitVec 8) (s : State)
    (hvect : trapVector i = some vect) (hword : encode (.trap ign vect) = encode i)
    (hreserved : isReserved i = false) :
    HoldsNext (RunEffect i s) (execTrap ign vect s) := by
  have kept (hne : vect ≠ 0x25#8) {t : State} (hrun : t.run = s.trapEntry.run) : RunEffect i s t :=
    .kept (hrun.trans (trapEntry_run s)) hreserved (by simpa [hvect] using hne)
  have string (hputs : vect = 0x22#8 ∨ vect = 0x24#8) (f : Word → List Byte) :
      RunEffect i s (s.trapEntry.writeString f (encode (.trap ign vect))) := by
    obtain hrun | ⟨info, hrun, hw, hcause⟩ := writeString_run s.trapEntry f (encode (.trap ign vect))
    · exact kept (by rintro rfl; revert hputs; decide) hrun
    · exact .string info hrun (hw.trans hword) hcause (by simpa [hvect] using hputs)
  unfold execTrap
  split
  · exact fun t ht => kept (by decide) (getcRoutine_run _ t ht)
  · exact .next (kept (by decide) rfl)
  · exact .next (string (.inl rfl) _)
  · exact fun t ht => kept (by decide) (inRoutine_run _ t ht)
  · exact .next (string (.inr rfl) _)
  · exact .next (.halted rfl hvect)
  next h25 => exact .next (kept h25 rfl)

theorem exec_of_reserved {i : Instr} (h : isReserved i = true) (s : State) :
    exec i s = .next (s.undefinedOpcode (encode i)) := by
  cases i with
  | reserved1000 | res => rfl
  | _ => cases h

theorem exec_runEffect (i : Instr) (s : State) : HoldsNext (RunEffect i s) (exec i s) := by
  cases i with
  | br nzp off =>
    refine .next (.kept ?_ rfl nofun)
    split <;> rfl
  | addReg | addImm | andReg | andImm | notReg | lea | jmp | ret | st | str => exact .next (.kept rfl rfl nofun)
  | ld | ldr | sti => exact .next (.kept (touch_run s _) rfl nofun)
  | ldi => exact .next (.kept ((touch_run _ _).trans (touch_run s _)) rfl nofun)
  | jsr => exact .next (.kept (link_run s) rfl nofun)
  | jsrr _ base _ =>
    show HoldsNext _ (execJsrr base s)
    unfold execJsrr
    split <;> exact .next (.kept (link_run s) rfl nofun)
  | reserved1000 | res => exact .next (.undefined rfl rfl)
  | trap ign vect => exact execTrap_runEffect ign vect s rfl rfl rfl
  | getc ign => exact execTrap_runEffect ign 0x20#8 s rfl rfl rfl
  | out ign => exact execTrap_runEffect ign 0x21#8 s rfl rfl rfl
  | puts ign => exact execTrap_runEffect ign 0x22#8 s rfl rfl rfl
  | inChar ign => exact execTrap_runEffect ign 0x23#8 s rfl rfl rfl
  | putsp ign => exact execTrap_runEffect ign 0x24#8 s rfl rfl rfl
  | halt ign => exact execTrap_runEffect ign 0x25#8 s rfl rfl rfl

/-- Settles O5: the decoder keeps the opcode, and of the effects on the run state only that of a reserved opcode
records the undefined-opcode cause. -/
theorem exactlyTwoOpcodesAreIllegal : Obligations.ExactlyTwoOpcodesAreIllegal := by
  intro w s hrun
  refine ⟨?_, fun h => ⟨_, exec_of_reserved h s, _, rfl, rfl⟩, fun h t info ht hfault hcause => ?_⟩
  · rw [opcodeOf_eq_opcode_decode, isReserved_iff_opcode]
  · cases exec_runEffect _ s t ht with
    | kept hkept => simp [hkept, hrun] at hfault
    | halted hhalted => simp [hhalted] at hfault
    | undefined _ hreserved => simp [h] at hreserved
    | string info' hstring _ hmodel =>
      obtain rfl := RunState.faulted.inj (hstring.symm.trans hfault)
      simp [hcause] at hmodel

end Sys2Proof.Machine

/-! ### Ignored bits -/

namespace Sys2Proof.Machine

theorem forgetWord_writeString (s : State) (f : Word → List Byte) (w w' : Word) :
    forgetWord (.next (s.writeString f w)) = forgetWord (.next (s.writeString f w')) := by
  unfold State.writeString
  generalize scanString f s.params.kbsrAddr s.mem 65536 (s.reg 0) = r
  obtain ⟨bs, stop⟩ := r
  cases stop <;> rfl

/-- The ignored bits of a TRAP reach only the word that a string's fault records (R64, R106). -/
theorem forgetWord_execTrap (ign ign' : BitVec 4) (vect : BitVec 8) (s : State) :
    forgetWord (execTrap ign vect s) = forgetWord (execTrap ign' vect s) := by
  unfold execTrap
  split
  · rfl
  · rfl
  · exact forgetWord_writeString _ _ _ _
  · rfl
  · exact forgetWord_writeString _ _ _ _
  · rfl
  · rfl

/-- Settles O6: only the reserved opcodes, PUTS and PUTSP execute with their ignored bits at all, and those reach
only the word that a fault records. -/
theorem ignoredBitsHaveNoEffect : Obligations.IgnoredBitsHaveNoEffect := by
  intro i s
  cases i with
  | trap ign vect => exact forgetWord_execTrap ign 0 vect s
  | puts ign => exact forgetWord_execTrap ign 0 0x22#8 s
  | putsp ign => exact forgetWord_execTrap ign 0 0x24#8 s
  | _ => rfl

end Sys2Proof.Machine

/-! ### The step and the words of the worked examples -/

namespace Sys2Proof.Machine

/-- The placed word is the next one fetched: after the placing the pc is not KBSR_ADDR (log 10). -/
theorem step_placeForFetch (s : State) (w : Word) :
    step (s.placeForFetch w) = exec (decode w) ((s.placeForFetch w).setPc ((s.placeForFetch w).pc + 1#16)) := by
  unfold State.placeForFetch
  refine step_memWrite_pc w rfl ?_
  show State.pc (ite _ _ _) ≠ (State.params (ite _ _ _)).kbsrAddr
  split
  next h =>
    simp only [setPc_pc, setPc_params, h]
    bv_omega
  next h => exact h

/-- Settles O50. -/
theorem placedWordIsFetchedNext : Obligations.PlacedWordIsFetchedNext := by
  intro s w hw
  have hmod : w % 2 ^ 16 = w := Nat.mod_eq_of_lt hw
  constructor
  · rw [decodeTableWord, if_pos le_rfl, hmod]
  · rw [State.withFetchWord, hmod]
    exact step_placeForFetch s _

/-- Settles O1. -/
theorem workedExampleWordsDecode : Obligations.WorkedExampleWordsDecode := by
  unfold Obligations.WorkedExampleWordsDecode
  decide

theorem branchTaken_none (c : Cond) : branchTaken 0b000#3 c = false := by cases c <;> rfl

theorem branchTaken_all (c : Cond) : branchTaken 0b111#3 c = true := by cases c <;> rfl

theorem exec_br_taken {nzp : BitVec 3} {s : State} (off : BitVec 9) (h : branchTaken nzp s.cond = true) :
    exec (.br nzp off) s = .next (s.setPc (pcRel9 s off)) :=
  congrArg Host.Outcome.next (if_pos h)

theorem exec_br_not_taken {nzp : BitVec 3} {s : State} (off : BitVec 9) (h : branchTaken nzp s.cond = false) :
    exec (.br nzp off) s = .next s :=
  congrArg Host.Outcome.next (if_neg (Bool.eq_false_iff.mp h))

/-- Settles O31. -/
theorem zeroWordIsANoOp : Obligations.ZeroWordIsANoOp := by
  intro off s
  have hzero : decode 0x0000#16 = .br 0b000#3 0 := by decide
  rw [hzero]
  exact ⟨exec_br_not_taken 0 (branchTaken_none _), exec_br_not_taken off (branchTaken_none _),
    exec_br_taken off (branchTaken_all _)⟩

/-- A running core whose pc is KBSR_ADDR executes the word that the poll of its fetch leaves there (R36, R68). -/
theorem step_of_running_at_kbsr {s : State} (hrun : s.run = .running) (hpc : s.pc = s.params.kbsrAddr) :
    step s = exec (decode (s.poll.rawRead s.pc)) (s.poll.setPc (s.pc + 1#16)) := by
  simp only [step, hrun, State.fetch, hpc, memRead_kbsr]

/-- Settles O46. -/
theorem stepRunsTheDecodedInstruction : Obligations.StepRunsTheDecodedInstruction := by
  rintro s _ hrun
  exact ⟨fun hpc hi => hi ▸ step_of_running hrun hpc, fun hpc hi => hi ▸ step_of_running_at_kbsr hrun hpc⟩

/-- Settles O47. -/
theorem stoppedCoreTakesNoStep : Obligations.StoppedCoreTakesNoStep := by
  rintro s info (hrun | hrun) <;> simp only [step, hrun]

end Sys2Proof.Machine

/-! ### The flag rule and the operate instructions

ADD, AND and NOT end in one `writeResult`, whose whole effect `writeResult_resultWritten` states; what is left of
each rule is the value of the word written. -/

namespace Sys2Proof.Machine

theorem getLsbD_fifteen (v : Word) : v.getLsbD 15 = decide (0x8000 ≤ v.toNat) :=
  (BitVec.msb_eq_getLsbD_last v).symm.trans (BitVec.msb_eq_decide v)

/-- What SetCC can answer, each flag with the values it stands for (R72). -/
theorem condOf_cases (v : Word) :
    condOf v = .neg ∧ 0x8000 ≤ v.toNat ∨ condOf v = .zero ∧ v.toNat = 0 ∨
      condOf v = .pos ∧ 0 < v.toNat ∧ v.toNat < 0x8000 := by
  rw [condOf, getLsbD_fifteen]
  split
  next hneg => exact .inl ⟨rfl, of_decide_eq_true hneg⟩
  next hneg =>
    split
    next hzero => exact .inr (.inl ⟨rfl, congrArg BitVec.toNat hzero⟩)
    next hzero =>
      have hpos : v.toNat ≠ 0 := toNat_ne hzero
      have hlow : ¬ 0x8000 ≤ v.toNat := fun h => hneg (decide_eq_true h)
      exact .inr (.inr ⟨rfl, Nat.pos_of_ne_zero hpos, Nat.lt_of_not_le hlow⟩)

theorem condOf_iff (v : Word) :
    (condOf v = .neg ↔ 0x8000 ≤ v.toNat) ∧ (condOf v = .zero ↔ v.toNat = 0) ∧
      (condOf v = .pos ↔ 0 < v.toNat ∧ v.toNat < 0x8000) := by
  obtain ⟨hc, hv⟩ | ⟨hc, hv⟩ | ⟨hc, hv⟩ := condOf_cases v
  all_goals
    simp only [hc, reduceCtorEq, true_iff, false_iff]
    omega

/-- Settles O15. -/
theorem setCCFollowsTheValue : Obligations.SetCCFollowsTheValue := by
  intro s v
  obtain ⟨hneg, hzero, hpos⟩ := condOf_iff v
  exact ⟨hneg, hzero, hpos, rfl, fun _ _ => rfl, fun _ _ => rfl, ⟨rfl, rfl⟩, rfl, rfl⟩

theorem writeResult_resultWritten (s : State) (dr : Reg) (v : Word) : ResultWritten dr v s (s.writeResult dr v) := by
  refine ⟨writeResult_reg_self s dr v, rfl, rfl, fun r hr => ?_, fun _ _ => rfl, ⟨rfl, rfl⟩, rfl, rfl⟩
  exact (writeResult_reg s dr v r).trans (if_neg (List.ne_of_not_mem_cons hr))

/-- Adding a sign-extended field adds its signed value, modulo 2^16 (R14, R74). -/
theorem toNat_add_sext (w : Word) {n : Nat} (v : BitVec n) :
    ((w + sext v).toNat : Int) = (w.toNat + v.toInt) % 65536 := by
  have hsext : ((sext v).toNat : Int) = v.toInt % 65536 := by
    rw [sext, BitVec.signExtend, BitVec.toNat_ofInt]
    omega
  rw [BitVec.toNat_add]
  omega

/-- Bit `k` of a sign-extended field is the field's own, and above the field it is the sign bit (R14). -/
theorem getLsbD_sext {n k : Nat} (v : BitVec n) (hk : k < 16) : (sext v).getLsbD k = v.getLsbD (min k (n - 1)) := by
  rw [sext, BitVec.getLsbD_signExtend, decide_eq_true hk, Bool.true_and, BitVec.msb_eq_getLsbD_last]
  split
  next hin => rw [Nat.min_eq_left (Nat.le_sub_one_of_lt hin)]
  next hout => rw [Nat.min_eq_right (by omega)]

/-- Settles O16. -/
theorem addWritesTheSum : Obligations.AddWritesTheSum := fun dr _ _ _ imm s =>
  ⟨⟨_, _, rfl, writeResult_resultWritten s dr _, BitVec.toNat_add _ _⟩,
    ⟨_, _, rfl, writeResult_resultWritten s dr _, toNat_add_sext _ imm⟩⟩

/-- Settles O17. -/
theorem andWritesTheConjunction : Obligations.AndWritesTheConjunction := by
  intro dr sr1 sr2 ign imm s
  refine ⟨⟨_, _, rfl, writeResult_resultWritten s dr _, fun _ => BitVec.getLsbD_and⟩,
    ⟨_, _, rfl, writeResult_resultWritten s dr _, fun k hk => ?_⟩⟩
  rw [BitVec.getLsbD_and, immOperand, getLsbD_sext imm hk]

/-- Settles O18. -/
theorem notWritesTheComplement : Obligations.NotWritesTheComplement := by
  intro dr sr ign s
  refine ⟨_, _, rfl, writeResult_resultWritten s dr _, fun k hk => ?_⟩
  rw [BitVec.getLsbD_not, decide_eq_true hk, Bool.true_and]

end Sys2Proof.Machine

/-! ### The control transfers

BR, JMP and RET end in one `setPc`, JSR and JSRR in `link` then `setPc`: `setPc_jumped` and `link_setPc_frame` state
the effect of each pair, and what is left of each rule is its target. -/

namespace Sys2Proof.Machine

theorem setPc_jumped (s : State) (target : Word) : Jumped target s (s.setPc target) :=
  ⟨rfl, rfl, fun _ _ => rfl, fun _ _ => rfl, ⟨rfl, rfl⟩, rfl, rfl⟩

/-- The condition bits n, z, p are bits 2, 1, 0 of the field, each the bit of one flag (R79, D5). -/
theorem branchTaken_iff (nzp : BitVec 3) (c : Cond) :
    branchTaken nzp c = true ↔ (c = .neg ∧ nzp.getLsbD 2 = true) ∨ (c = .zero ∧ nzp.getLsbD 1 = true) ∨
      (c = .pos ∧ nzp.getLsbD 0 = true) := by
  cases c <;> revert nzp <;> decide

/-- Settles O30. -/
theorem brBranchesOnTheFlag : Obligations.BrBranchesOnTheFlag := by
  intro nzp off s
  simp only [← branchTaken_iff]
  split
  next htaken => exact ⟨_, exec_br_taken off htaken, setPc_jumped s _⟩
  next hnot => exact ⟨s, exec_br_not_taken off (Bool.eq_false_iff.mpr hnot), setPc_jumped s s.pc⟩

/-- Settles O32. -/
theorem jmpGoesToTheRegister : Obligations.JmpGoesToTheRegister := fun _ base _ s =>
  ⟨⟨_, rfl, setPc_jumped s (s.reg base)⟩, ⟨_, rfl, setPc_jumped s (s.reg 7)⟩⟩

theorem link_reg_seven (s : State) : s.link.reg 7 = s.pc := (link_reg s 7).trans (if_pos rfl)

/-- A linking jump beside R7 and the pc: COND only as `LINK_SETS_CC` has it, and nothing else (R81, R82, D12). -/
theorem link_setPc_frame (s : State) (target : Word) :
    (s.link.setPc target).cond = (if s.params.linkSetsCc then condOf s.pc else s.cond) ∧
      RegsKept [7] s (s.link.setPc target) ∧ MemKept [] s (s.link.setPc target) ∧
      StreamsKept s (s.link.setPc target) ∧ ControlKept s (s.link.setPc target) := by
  refine ⟨link_cond s, fun r hr => ?_, fun a _ => rawRead_of_mem_eq (link_mem s) a,
    ⟨link_input s, link_output s⟩, link_run s, link_params s⟩
  exact (link_reg s r).trans (if_neg (List.ne_of_not_mem_cons hr))

/-- Settles O33. -/
theorem jsrLinksAndGoes : Obligations.JsrLinksAndGoes := fun off s =>
  ⟨_, rfl, link_reg_seven s, toNat_add_sext s.pc off, link_setPc_frame s _⟩

/-- JSRR's target: R7 read after the link is the return address, and every other read is of the old register
(R82, D26). -/
theorem exec_jsrr (ignHi : BitVec 2) (base : Reg) (ignLo : BitVec 6) (s : State) :
    exec (.jsrr ignHi base ignLo) s = .next (s.link.setPc
      (if base = 7 ∧ s.params.jsrrBaseRead = .afterLink then s.pc else s.reg base)) := by
  show execJsrr base s = _
  unfold execJsrr
  split
  next hread => simp only [hread, and_true, link_reg]
  next hread => simp only [hread, reduceCtorEq, and_false, if_false]

/-- Settles O34. -/
theorem jsrrLinksAndGoes : Obligations.JsrrLinksAndGoes := fun ignHi base ignLo s =>
  ⟨_, exec_jsrr ignHi base ignLo s, link_reg_seven s, rfl, link_setPc_frame s _⟩

end Sys2Proof.Machine

/-! ### Loads and stores

LD, LDR and LDI end in one `loadFrom`, whose whole effect `loadFrom_loaded` and, where the read does not poll,
`loadFrom_resultWritten` state; ST, STR and STI end in one `memWrite`, for which `memWrite_stored` does the same. What
is left of each rule is its address and, for the indirect forms, the read of the pointer. -/

namespace Sys2Proof.Machine

/-- Settles O19. -/
theorem leaWritesTheAddress : Obligations.LeaWritesTheAddress := fun dr off s =>
  ⟨_, _, rfl, writeResult_resultWritten s dr _, toNat_add_sext s.pc off⟩

/-- The result is written in the state the read leaves, and the read itself touches neither the registers, the pc,
the output nor the run (R37, R85). -/
theorem loadFrom_loaded (s : State) (dr : Reg) (ea : Word) : Loaded dr ea s (s.loadFrom dr ea) := by
  obtain ⟨hreg, hcond, hpc, hregs, hmem, ⟨hin, hout⟩, hrun, hparams⟩ :=
    writeResult_resultWritten (s.touch ea) dr (s.memRead ea).1
  exact ⟨hreg, hcond, hpc.trans (touch_pc s ea), fun r hr => (hregs r hr).trans (touch_reg s ea r),
    fun a => hmem a List.not_mem_nil, hin, hout.trans (touch_output s ea), hrun.trans (touch_run s ea),
    hparams.trans (touch_params s ea)⟩

/-- A load from any address but KBSR_ADDR changes nothing beside its register and COND (R36, R85). -/
theorem loadFrom_resultWritten {s : State} (dr : Reg) {ea : Word} (h : ea ≠ s.params.kbsrAddr) :
    ResultWritten dr (s.rawRead ea) s (s.loadFrom dr ea) := by
  rw [State.loadFrom, memRead_other h]
  exact writeResult_resultWritten s dr (s.rawRead ea)

/-- Settles O25. -/
theorem ldAndLdrLoadTheWord : Obligations.LdAndLdrLoadTheWord := fun dr base off9 off6 s =>
  ⟨toNat_add_sext s.pc off9, toNat_add_sext (s.reg base) off6,
    ⟨_, rfl, loadFrom_loaded s dr _, loadFrom_resultWritten dr⟩,
    ⟨_, rfl, loadFrom_loaded s dr _, loadFrom_resultWritten dr⟩⟩

/-- Settles O26: the load from the pointer's target is made in the state that the pointer's read leaves. -/
theorem ldiLoadsThroughThePointer : Obligations.LdiLoadsThroughThePointer := by
  intro dr off s
  have hloaded@⟨_, _, _, hregs, _⟩ := loadFrom_loaded (indirect9 s off).2 dr (indirect9 s off).1
  refine ⟨_, rfl, hloaded, fun r hr => (hregs r hr).trans (touch_reg s _ r), fun hptr hdata => ?_⟩
  rw [indirect9, memRead_other hptr]
  exact loadFrom_resultWritten dr hdata

/-- Settles O28. -/
theorem stAndStrStoreTheRegister : Obligations.StAndStrStoreTheRegister := fun _ base off9 off6 s =>
  ⟨toNat_add_sext s.pc off9, toNat_add_sext (s.reg base) off6,
    ⟨_, rfl, memWrite_stored s _ _⟩, ⟨_, rfl, memWrite_stored s _ _⟩⟩

/-- Settles O29: the store is made in the state that the pointer's read leaves, which is `s` itself when the
pointer is not at KBSR_ADDR. -/
theorem stiStoresThroughThePointer : Obligations.StiStoresThroughThePointer := by
  intro sr off s
  refine ⟨_, rfl, memWrite_stored _ _ _, fun r _ => touch_reg s _ r, fun hptr => ?_⟩
  rw [indirect9, memRead_other hptr]
  exact memWrite_stored s _ _

end Sys2Proof.Machine

/-! ### The trap-service unit

Every TRAP starts in `s.trapEntry`; OUT, PUTS, PUTSP and HALT then end in one `outBytes`, GETC and IN in one
`receiveChar`. `outBytes_trapFrame` and `receiveChar_trapFrame` state the frame of each end, and what is left of each
rule is the bytes written or the byte read. -/

namespace Sys2Proof.Machine

section
variable {s t : State}

/-- What TRAP leaves of the registers, for a routine that writes at most the registers listed (D14). -/
theorem regsKeptByTrap_of_trapEntry {but : List Reg} (h7 : 7 ∉ but)
    (hregs : ∀ r, r ∉ but → t.reg r = s.trapEntry.reg r) : RegsKeptByTrap but s t := by
  refine ⟨fun r hr => ?_, ?_⟩
  · obtain ⟨hne, hbut⟩ := List.ne_and_not_mem_of_not_mem_cons hr
    rw [hregs r hbut, trapEntry_reg, if_neg fun h => hne h.2]
  · simp [hregs 7 h7, trapEntry_reg]

theorem CpuKept.regsKeptByTrap (h : CpuKept s.trapEntry t) : RegsKeptByTrap [] s t :=
  regsKeptByTrap_of_trapEntry List.not_mem_nil fun r _ => h.reg r

theorem memKept_of_mem_eq (h : t.mem = s.mem) : MemKept [] s t := fun a _ => rawRead_of_mem_eq h a

end

/-- A TRAP that only writes bytes: everything but the output is as its entry leaves it. -/
theorem outBytes_trapFrame (s : State) (bs : List Byte) :
    (s.trapEntry.outBytes bs).input = s.input ∧ (s.trapEntry.outBytes bs).cond = s.cond ∧
      (s.trapEntry.outBytes bs).pc = s.pc ∧ RegsKeptByTrap [] s (s.trapEntry.outBytes bs) ∧
      MemKept [] s (s.trapEntry.outBytes bs) ∧ ControlKept s (s.trapEntry.outBytes bs) :=
  ⟨trapEntry_input s, trapEntry_cond s, trapEntry_pc s, ((CpuKept.refl _).outBytes bs).regsKeptByTrap,
    memKept_of_mem_eq (trapEntry_mem s), trapEntry_run s, trapEntry_params s⟩

theorem trapEntry_outBytes_output (s : State) (bs : List Byte) :
    (s.trapEntry.outBytes bs).output = s.output ++ bs := by
  rw [outBytes_output, trapEntry_output]

theorem execTrap_of_unknown {vect : BitVec 8} (ign : BitVec 4) (s : State)
    (h : vect.toNat < 0x20 ∨ 0x25 < vect.toNat) : execTrap ign vect s = .next s.trapEntry := by
  unfold execTrap
  split
  pick_goal 7
  · rfl
  all_goals exact absurd h (by decide)

/-- Settles O35. -/
theorem unknownVectorIsANoOp : Obligations.UnknownVectorIsANoOp := fun ign _ s h =>
  ⟨_, execTrap_of_unknown ign s h, trapEntry_pc s, trapEntry_cond s, (CpuKept.refl _).regsKeptByTrap,
    memKept_of_mem_eq (trapEntry_mem s), ⟨trapEntry_input s, trapEntry_output s⟩, trapEntry_run s,
    trapEntry_params s⟩

/-- A character is in the low half of its word (R42). -/
theorem toNat_lowByte (w : Word) : (lowByte w).toNat = w.toNat % 256 := by
  simp [lowByte, BitVec.extractLsb'_toNat]

theorem toNat_highByte (w : Word) : (highByte w).toNat = w.toNat / 256 := by
  rw [highByte, BitVec.extractLsb'_toNat, Nat.shiftRight_eq_div_pow]
  omega

/-- Settles O39. -/
theorem outWritesTheLowByte : Obligations.OutWritesTheLowByte := by
  intro ign s
  refine ⟨s.trapEntry.outBytes [lowByte (s.trapEntry.reg 0)], _, rfl, ?_, trapEntry_outBytes_output s _,
    outBytes_trapFrame s _⟩
  rw [toNat_lowByte, trapEntry_reg0]

/-- Settles O43. -/
theorem haltWritesTheMessageAndStops : Obligations.HaltWritesTheMessageAndStops := by
  intro ign s
  refine ⟨(s.trapEntry.outBytes s.trapEntry.params.haltMessage).halt, rfl, rfl, ?_, trapEntry_input s,
    trapEntry_cond s, trapEntry_pc s, trapEntry_params s, ((CpuKept.refl _).outBytes _).halt.regsKeptByTrap,
    memKept_of_mem_eq (trapEntry_mem s)⟩
  rw [halt_output, trapEntry_outBytes_output, trapEntry_params]

/-! #### GETC and IN -/

section
variable {s : State} {b : Byte} {p : InputPort}

theorem inRead_of_take (h : s.input.take = some (b, p)) : s.inRead = some (b, { s with input := p }) := by
  simp [State.inRead, h]

theorem inRead_at_end (h : s.input.take = none) : s.inRead = none := by
  simp [State.inRead, h]

theorem getcRoutine_of_take (h : s.input.take = some (b, p)) :
    getcRoutine s = .next (State.receiveChar { s with input := p } b) := by
  simp only [getcRoutine, inRead_of_take h]

theorem getcRoutine_at_end (h : s.input.take = none) : getcRoutine s = .fault (.inputEnded s.output) := by
  simp only [getcRoutine, inRead_at_end h]

theorem inRoutine_of_take (h : s.input.take = some (b, p)) :
    inRoutine s = .next
      ((State.outBytes { s.outBytes s.params.inPrompt with input := p } [b]).receiveChar b) := by
  have hread : (s.outBytes s.params.inPrompt).inRead = some (b, _) := inRead_of_take h
  simp only [inRoutine, flush_eq, hread]

theorem inRoutine_at_end (h : s.input.take = none) :
    inRoutine s = .fault (.inputEnded (s.output ++ s.params.inPrompt)) := by
  have hread : (s.outBytes s.params.inPrompt).inRead = none := inRead_at_end h
  simp only [inRoutine, flush_eq, hread, outBytes_output]

/-- A zero-extended byte is never negative (R72, D18). -/
theorem condOf_zextByte (b : Byte) : condOf (zextByte b) = if b = 0 then .zero else .pos := by
  obtain ⟨-, hzero, hpos⟩ := condOf_iff (zextByte b)
  rw [toNat_zextByte] at hzero hpos
  split
  next hb => exact hzero.mpr (congrArg BitVec.toNat hb)
  next hb =>
    have hne : b.toNat ≠ 0 := fun e => hb (BitVec.eq_of_toNat_eq e)
    exact hpos.mpr (by omega)

/-- GETC and IN end by receiving the byte in a state `u` that differs from the TRAP's entry in the streams alone. -/
theorem receiveChar_trapFrame {u : State} (hkept : CpuKept s.trapEntry u) (hmem : u.mem = s.mem)
    (hrun : u.run = s.run) (b : Byte) :
    ((u.receiveChar b).reg 0).toNat = b.toNat ∧
      (u.receiveChar b).cond = (if s.params.trapInSetsCc then if b = 0 then .zero else .pos else s.cond) ∧
      (u.receiveChar b).pc = s.pc ∧ RegsKeptByTrap [0] s (u.receiveChar b) ∧
      MemKept [] s (u.receiveChar b) ∧ ControlKept s (u.receiveChar b) := by
  have hparams : u.params = s.params := hkept.params.trans (trapEntry_params s)
  refine ⟨?_, ?_, ?_, regsKeptByTrap_of_trapEntry (by decide) fun r hr => ?_, memKept_of_mem_eq ?_, ?_, ?_⟩
  · rw [receiveChar_reg, if_pos rfl, toNat_zextByte]
  · rw [receiveChar_cond, hparams, condOf_zextByte, hkept.cond, trapEntry_cond]
  · rw [receiveChar_pc, hkept.pc, trapEntry_pc]
  · rw [receiveChar_reg, if_neg (List.ne_of_not_mem_cons hr), hkept.reg]
  · rw [receiveChar_mem, hmem]
  · rw [receiveChar_run, hrun]
  · rw [receiveChar_params, hparams]

end

/-- Settles O36. -/
theorem getcReadsOneByte : Obligations.GetcReadsOneByte := by
  intro ign s b p htake
  rw [← trapEntry_input s] at htake
  obtain ⟨hr0, hcond, hpc, hregs, hmem, hcontrol⟩ := receiveChar_trapFrame (s := s)
    ((CpuKept.refl _).setInput p) (trapEntry_mem s) (trapEntry_run s) b
  exact ⟨_, getcRoutine_of_take htake, hr0, hcond, hpc, hregs, hmem, receiveChar_input _ b,
    (receiveChar_output _ b).trans (trapEntry_output s), hcontrol⟩

/-- Settles O37. -/
theorem inPromptsEchoesAndReads : Obligations.InPromptsEchoesAndReads := by
  intro ign s b p htake
  rw [← trapEntry_input s] at htake
  obtain ⟨hr0, hcond, hpc, hregs, hmem, hcontrol⟩ := receiveChar_trapFrame (s := s)
    ((((CpuKept.refl _).outBytes s.trapEntry.params.inPrompt).setInput p).outBytes [b])
    (trapEntry_mem s) (trapEntry_run s) b
  refine ⟨_, inRoutine_of_take htake, hr0, hcond, hpc, hregs, hmem, receiveChar_input _ b, ?_, hcontrol⟩
  simp only [receiveChar_output, outBytes_output, trapEntry_output, trapEntry_params]

/-- Settles O38. -/
theorem readsAreStuckAtTheEndOfInput : Obligations.ReadsAreStuckAtTheEndOfInput := by
  intro ign s hbytes hended
  have htake : s.trapEntry.input.take = none := by rw [trapEntry_input, take_of_ended hbytes hended]
  constructor
  · exact (getcRoutine_at_end htake).trans (by rw [trapEntry_output])
  · exact (inRoutine_at_end htake).trans (by rw [trapEntry_output, trapEntry_params])

/-! #### PUTS and PUTSP -/

/-- What PUTS and PUTSP write of the `n` words from address `a` up, `bytesOf` giving the bytes of each word. -/
def stringBytes (bytesOf : Word → List Byte) (s : State) (a : Word) (n : Nat) : List Byte :=
  (List.range n).flatMap fun k => bytesOf (s.rawRead (a + BitVec.ofNat 16 k))

theorem toNat_add_ofNat {a : Word} {k : Nat} (h : a.toNat + k < 65536) :
    (a + BitVec.ofNat 16 k).toNat = a.toNat + k := by
  rw [BitVec.toNat_add, BitVec.toNat_ofNat]
  omega

/-- The walk over `n` words that are not zero and not at KBSR_ADDR writes their bytes and goes on at `a + n`. -/
theorem scanString_eq_stringBytes {s : State} {a : Word} {n : Nat} (f : Word → List Byte) (fuel : Nat)
    (htop : a.toNat + n < 65536) (hdev : ∀ k, k < n → a + BitVec.ofNat 16 k ≠ s.params.kbsrAddr)
    (hne : ∀ k, k < n → s.rawRead (a + BitVec.ofNat 16 k) ≠ 0x0000#16) :
    scanString f s.params.kbsrAddr s.mem (n + fuel) a =
      (stringBytes f s a n ++ (scanString f s.params.kbsrAddr s.mem fuel (a + BitVec.ofNat 16 n)).1,
        (scanString f s.params.kbsrAddr s.mem fuel (a + BitVec.ofNat 16 n)).2) := by
  have haddr (k : Nat) (hk : k < n) : (a + BitVec.ofNat 16 k).toNat = a.toNat + k := toNat_add_ofNat (by omega)
  have hread (k : Nat) (hk : k < n) : s.mem.read (a.toNat + k) = s.rawRead (a + BitVec.ofNat 16 k) := by
    rw [State.rawRead, haddr k hk]
  rw [scanString_walk f _ _ n fuel a htop (fun k hk => by rw [hread k hk]; exact hne k hk)
    (fun k hk => by rw [← haddr k hk]; exact toNat_ne (hdev k hk)), stringBytes]
  congr 2
  exact List.flatMap_congr fun k hk => by rw [hread k (List.mem_range.mp hk)]

/-- The walk along a string that ends writes all of it and nothing else. -/
theorem scanString_of_stringAt {s : State} {a : Word} {n : Nat} (f : Word → List Byte) (h : StringAt s a n) :
    scanString f s.params.kbsrAddr s.mem 65536 a = (stringBytes f s a n, .terminated) := by
  obtain ⟨htop, hdev, hne, hend⟩ := h
  have hfuel : 65536 = n + (65535 - n + 1) := by omega
  have hlast : scanString f s.params.kbsrAddr s.mem (65535 - n + 1) (a + BitVec.ofNat 16 n) = ([], .terminated) := by
    rw [scanString, if_neg (hdev n le_rfl)]
    exact if_pos hend
  rw [hfuel, scanString_eq_stringBytes f _ htop (fun k hk => hdev k hk.le) hne, hlast, List.append_nil]

/-- PUTS and PUTSP on a string that ends raise no fault. -/
theorem writeString_of_stringAt {s : State} {n : Nat} (f : Word → List Byte) (w : Word)
    (h : StringAt s (s.reg 0) n) :
    s.trapEntry.writeString f w = s.trapEntry.outBytes (stringBytes f s (s.reg 0) n) := by
  simp only [State.writeString, trapEntry_params, trapEntry_mem, trapEntry_reg0, scanString_of_stringAt f h,
    stringFault, flush_eq]

/-- PUTS writes one byte for each word (R95). -/
theorem stringBytes_putsBytes (s : State) (a : Word) (n : Nat) :
    stringBytes putsBytes s a n = (List.range n).map fun k => lowByte (s.rawRead (a + BitVec.ofNat 16 k)) :=
  List.map_eq_flatMap.symm

/-- Settles O40: the bytes are those of `stringBytes`, one for each word. -/
theorem putsWritesTheString : Obligations.PutsWritesTheString := by
  intro ign s n h
  refine ⟨_, stringBytes putsBytes s (s.reg 0) n, congrArg Host.Outcome.next (writeString_of_stringAt putsBytes _ h),
    trapEntry_outBytes_output s _, ?_, fun k b hb => ?_, outBytes_trapFrame s _⟩
  · rw [stringBytes_putsBytes, List.length_map, List.length_range]
  · rw [stringBytes_putsBytes, List.getElem?_map] at hb
    obtain ⟨j, hj, rfl⟩ := Option.map_eq_some_iff.mp hb
    obtain ⟨-, rfl⟩ := List.getElem?_eq_some_iff.mp hj
    rw [List.getElem_range, toNat_lowByte]

/-- PUTSP writes the packed bytes of each word, by value (R97, D30). -/
theorem map_toNat_putspBytes (c : Word) : (putspBytes c).map BitVec.toNat = packedBytes c.toNat := by
  have hzero : highByte c = 0x00#8 ↔ c.toNat / 256 = 0 := by rw [← BitVec.toNat_inj, toNat_highByte]; rfl
  simp only [putspBytes, packedBytes, hzero]
  split <;> simp [toNat_lowByte, toNat_highByte]

theorem map_toNat_stringBytes_putspBytes (s : State) (a : Word) (n : Nat) :
    (stringBytes putspBytes s a n).map BitVec.toNat =
      (List.range n).flatMap fun k => packedBytes (s.rawRead (a + BitVec.ofNat 16 k)).toNat := by
  simp only [stringBytes, List.map_flatMap, map_toNat_putspBytes]

/-- Settles O41: the bytes are those of `stringBytes`, packed by value. -/
theorem putspWritesThePackedString : Obligations.PutspWritesThePackedString := by
  intro ign s n h
  refine ⟨_, congrArg Host.Outcome.next (writeString_of_stringAt putspBytes _ h), ?_, ?_, outBytes_trapFrame s _⟩
  · rw [trapEntry_outBytes_output, List.drop_left]
    exact map_toNat_stringBytes_putspBytes s (s.reg 0) n
  · rw [trapEntry_outBytes_output, List.take_left]

/-! #### Every TRAP, and every step -/

/-- No row of TRAP is a control transfer, and R20's table names R7 for none. -/
theorem tables_of_trapVector {i : Instr} (h : trapVector i ≠ none) :
    transfersControl i = false ∧ writtenReg i ≠ some 7 := by
  cases i with
  | trap ign vect =>
    refine ⟨rfl, ?_⟩
    simp only [writtenReg]
    split <;> decide
  | getc | out | puts | inChar | putsp | halt => exact ⟨rfl, nofun⟩
  | _ => exact absurd rfl h

/-- Settles O44, from the rules about the pc and the registers of every instruction. -/
theorem trapWritesNeitherPcNorR7 : Obligations.TrapWritesNeitherPcNorR7 := by
  intro i s t htrap _ ht hfaulted
  obtain ⟨htransfers, hwritten⟩ := tables_of_trapVector htrap
  exact ⟨onlyControlTransfersChangeThePc i s t ht hfaulted htransfers,
    fun hlinks => onlyTheNamedRegisterIsWritten i s t hlinks ht hfaulted 7 hwritten⟩

theorem take_eq_none {p : InputPort} (h : p.take = none) : p.bytes = [] ∧ p.ended = true := by
  obtain ⟨b, r, -, e⟩ | ⟨hbytes, hended, -⟩ | ⟨-, -, e⟩ := take_cases p
  · rw [h] at e; cases e
  · exact ⟨hbytes, hended⟩
  · rw [h] at e; cases e

/-- How an instruction ends: it completes, or it is GETC or IN and the input has ended (R100, D15). -/
inductive CompletesOrStuck (i : Instr) (s : State) (o : Host.Outcome State Fault Refusal) : Prop
  | completes (t : State) (ho : o = .next t)
  | stuck (out : List Byte) (ho : o = .fault (.inputEnded out))
      (hreads : trapVector i = some 0x20#8 ∨ trapVector i = some 0x23#8) (htake : s.input.take = none)

theorem execTrap_completesOrStuck {i : Instr} (ign : BitVec 4) (vect : BitVec 8) (s : State)
    (hvect : trapVector i = some vect) : CompletesOrStuck i s (execTrap ign vect s) := by
  have hinput := trapEntry_input s
  unfold execTrap
  split
  · cases htake : s.trapEntry.input.take with
    | none => exact .stuck _ (getcRoutine_at_end htake) (.inl hvect) (hinput ▸ htake)
    | some bp => exact .completes _ (getcRoutine_of_take htake)
  · exact .completes _ rfl
  · exact .completes _ rfl
  · cases htake : s.trapEntry.input.take with
    | none => exact .stuck _ (inRoutine_at_end htake) (.inr hvect) (hinput ▸ htake)
    | some bp => exact .completes _ (inRoutine_of_take htake)
  · exact .completes _ rfl
  · exact .completes _ rfl
  · exact .completes _ rfl

theorem exec_completesOrStuck (i : Instr) (s : State) : CompletesOrStuck i s (exec i s) := by
  cases i with
  | trap ign vect => exact execTrap_completesOrStuck ign vect s rfl
  | getc ign => exact execTrap_completesOrStuck ign 0x20#8 s rfl
  | inChar ign => exact execTrap_completesOrStuck ign 0x23#8 s rfl
  | jsrr ignHi base ignLo => exact .completes _ (exec_jsrr ignHi base ignLo s)
  | _ => exact .completes _ rfl

/-- Settles O54: the fetch completes, and what is executed then completes or is stuck. -/
theorem onlyEndedInputIsStuck : Obligations.OnlyEndedInputIsStuck := by
  intro s
  unfold step
  split
  next hrun =>
    cases exec_completesOrStuck (decode s.fetch.1) s.fetch.2 with
    | completes t ho => exact .inl ⟨t, ho⟩
    | stuck out ho hreads htake => exact .inr ⟨hrun, ⟨out, ho⟩, hreads, take_eq_none htake⟩
  · exact .inl ⟨s, rfl⟩
  · exact .inl ⟨s, rfl⟩

/-- The instruction is one of those that write to the output: OUT, PUTS, IN, PUTSP, HALT (R101). -/
def WritesOutput (i : Instr) : Prop := ∃ v, trapVector i = some v ∧ 0x21 ≤ v.toNat ∧ v.toNat ≤ 0x25

theorem output_extends_keptByWrites (out : List Byte) : KeptByWrites (fun s => ∃ bs, s.output = out ++ bs) where
  setReg _ _ _ hs := hs
  setPc _ _ hs := hs
  setCC _ _ hs := hs
  memWrite _ _ _ hs := hs
  outBytes s bs := by
    rintro ⟨cs, hs⟩
    exact ⟨cs ++ bs, by rw [outBytes_output, hs, List.append_assoc]⟩
  raiseFault _ _ hs := hs
  halt _ hs := hs

theorem getcRoutine_output (s : State) : HoldsNext (fun t => t.output = s.output) (getcRoutine s) := by
  cases htake : s.input.take with
  | none => rw [getcRoutine_at_end htake]; exact .fault _
  | some bp => rw [getcRoutine_of_take htake]; exact .next (receiveChar_output _ _)

theorem execTrap_output_of_silent (ign : BitVec 4) {vect : BitVec 8} (s : State)
    (h : vect = 0x20#8 ∨ vect.toNat < 0x20 ∨ 0x25 < vect.toNat) :
    HoldsNext (fun t => t.output = s.output) (execTrap ign vect s) := by
  obtain rfl | hunknown := h
  · rw [← trapEntry_output s]; exact getcRoutine_output s.trapEntry
  · rw [execTrap_of_unknown ign s hunknown]; exact .next (trapEntry_output s)

theorem exec_output_of_silent {i : Instr} (s : State) (h : ¬ WritesOutput i) :
    HoldsNext (fun t => t.output = s.output) (exec i s) := by
  cases i with
  | br nzp off => refine .next ?_; split <;> rfl
  | addReg | addImm | andReg | andImm | notReg | lea | st | str | jmp | ret | reserved1000 | res => exact .next rfl
  | ld | ldr | sti => exact .next (touch_output s _)
  | ldi => exact .next ((touch_output _ _).trans (touch_output s _))
  | jsr => exact .next (link_output s)
  | jsrr ignHi base ignLo => rw [exec_jsrr]; exact .next (link_output s)
  | trap ign vect =>
    have hvect : ¬ (0x21 ≤ vect.toNat ∧ vect.toNat ≤ 0x25) := fun hv => h ⟨vect, rfl, hv⟩
    exact execTrap_output_of_silent ign s (by bv_omega)
  | getc ign => exact execTrap_output_of_silent ign s (.inl rfl)
  | out | puts | inChar | putsp | halt => exact absurd ⟨_, rfl, by decide, by decide⟩ h

/-- Settles O60: appending is kept by every step, and an instruction that is none of the five leaves the output
alone. -/
theorem onlyTrapsAppendOutput : Obligations.OnlyTrapsAppendOutput := by
  intro s t ht
  by_cases hwrites : s.run = .running ∧ WritesOutput (decode s.fetch.1)
  · obtain ⟨bs, hbs⟩ := (output_extends_keptByWrites s.output).step (fun _ _ hs => hs) s
      ⟨[], (List.append_nil _).symm⟩ t ht
    exact ⟨bs, hbs, fun _ => hwrites⟩
  · refine ⟨[], ?_, fun h => absurd rfl h⟩
    rw [List.append_nil]
    unfold step at ht
    split at ht
    next hrun =>
      have hsilent := exec_output_of_silent s.fetch.2 (fun h => hwrites ⟨hrun, h⟩) t ht
      exact hsilent.trans (touch_output s s.pc)
    · cases ht; rfl
    · cases ht; rfl

end Sys2Proof.Machine

/-! ### The reserved opcodes

What a reserved opcode does is `exec_of_reserved`, and that a stopped core stays is O47; what is left is the value
of the word that the fault records. -/

namespace Sys2Proof

/-- A field that ends inside the word is put there with nothing lost (R12). -/
theorem toNat_put {n : Nat} (v : BitVec n) {lo : Nat} (h : lo + n ≤ 16) : (put v lo).toNat = 2 ^ lo * v.toNat := by
  have hbound : 2 ^ lo * v.toNat < 2 ^ 16 :=
    calc 2 ^ lo * v.toNat < 2 ^ lo * 2 ^ n := by gcongr; exact v.isLt
      _ = 2 ^ (lo + n) := (Nat.pow_add 2 lo n).symm
      _ ≤ 2 ^ 16 := Nat.pow_le_pow_right (by decide) h
  rw [put, BitVec.toNat_shiftLeft, BitVec.toNat_setWidth_of_le (by omega), Nat.shiftLeft_eq, Nat.mul_comm,
    Nat.mod_eq_of_lt hbound]

/-- A field above one that starts at bit 0: the values add up. -/
theorem toNat_put_or_put {m n : Nat} (hi : BitVec m) (low : BitVec n) (h : n + m ≤ 16) :
    (put hi n ||| put low 0).toNat = 2 ^ n * hi.toNat + low.toNat := by
  rw [BitVec.toNat_or, toNat_put hi h, toNat_put low (by omega), Nat.pow_zero, Nat.one_mul,
    Nat.two_pow_add_eq_or_of_lt low.isLt]

theorem toNat_encode_reserved1000 (ign : BitVec 12) : (encode (.reserved1000 ign)).toNat = 0x8000 + ign.toNat :=
  toNat_put_or_put 0x8#4 ign (by decide)

theorem toNat_encode_res (ign : BitVec 12) : (encode (.res ign)).toNat = 0xD000 + ign.toNat :=
  toNat_put_or_put 0xD#4 ign (by decide)

end Sys2Proof

namespace Sys2Proof.Machine

theorem step_undefinedOpcode (s : State) (w : Word) : step (s.undefinedOpcode w) = .next (s.undefinedOpcode w) :=
  stoppedCoreTakesNoStep _ ⟨.undefinedOpcode, w, s.pc - 1#16⟩ (.inr (raiseFault_run s _))

/-- Settles O45: both opcodes end in `State.undefinedOpcode` with their own word. -/
theorem reservedOpcodesFault : Obligations.ReservedOpcodesFault := fun ign s =>
  ⟨⟨_, exec_of_reserved rfl s, step_undefinedOpcode s _, raiseFault_output s _,
      _, raiseFault_run s _, toNat_encode_reserved1000 ign⟩,
    ⟨_, exec_of_reserved rfl s, step_undefinedOpcode s _, raiseFault_output s _,
      _, raiseFault_run s _, toNat_encode_res ign⟩⟩

end Sys2Proof.Machine

/-! ### The strings that do not end

The walk along a string that runs on to KBSR_ADDR or to 0xFFFF has written `stringBytes` when it stops;
`puts_and_putsp_fault` says what then becomes of both routines, whichever of the two ends stops the walk. -/

namespace Sys2Proof.Machine

theorem stringBytes_succ (f : Word → List Byte) (s : State) (a : Word) (n : Nat) :
    stringBytes f s a (n + 1) = stringBytes f s a n ++ f (s.rawRead (a + BitVec.ofNat 16 n)) := by
  simp [stringBytes, List.range_succ]

section
variable {s : State} {a : Word} {n : Nat}
  (hwalk : ∀ k, k < n →
    a + BitVec.ofNat 16 k ≠ s.params.kbsrAddr ∧ s.rawRead (a + BitVec.ofNat 16 k) ≠ 0x0000#16)
include hwalk

/-- With the fuel of PUTS and PUTSP the walk comes to every address of the string, and goes on from there. -/
theorem scanString_of_walk {f : Word → List Byte} {bs : List Byte} {stop : StringEnd}
    (htop : a.toNat + n < 65536)
    (hstop : ∀ fuel, scanString f s.params.kbsrAddr s.mem (fuel + 1) (a + BitVec.ofNat 16 n) = (bs, stop)) :
    scanString f s.params.kbsrAddr s.mem 65536 a = (stringBytes f s a n ++ bs, stop) := by
  have hfuel : 65536 = n + (65535 - n + 1) := by omega
  rw [hfuel, scanString_eq_stringBytes f _ htop (fun k hk => (hwalk k hk).1) (fun k hk => (hwalk k hk).2), hstop]

/-- The device check comes before the read: the word at KBSR_ADDR is not written (R107). -/
theorem scanString_to_device (f : Word → List Byte) (htop : a.toNat + n < 65536)
    (hdev : a + BitVec.ofNat 16 n = s.params.kbsrAddr) :
    scanString f s.params.kbsrAddr s.mem 65536 a = (stringBytes f s a n, .throughDevice) := by
  rw [scanString_of_walk hwalk htop fun _ => by rw [scanString, if_pos hdev], List.append_nil]

/-- The overrun check comes after the write: the word at 0xFFFF is written (R107). -/
theorem scanString_to_top (f : Word → List Byte) (htop : a.toNat + n = 65535)
    (hdev : 0xFFFF#16 ≠ s.params.kbsrAddr) (hne : s.rawRead 0xFFFF#16 ≠ 0x0000#16) :
    scanString f s.params.kbsrAddr s.mem 65536 a = (stringBytes f s a (n + 1), .overrun) := by
  have hlast : a + BitVec.ofNat 16 n = 0xFFFF#16 :=
    BitVec.eq_of_toNat_eq ((toNat_add_ofNat (by omega)).trans htop)
  rw [stringBytes_succ, scanString_of_walk hwalk (by omega) fun fuel => ?_]
  rw [hlast, scanString, if_neg hdev]
  exact (if_neg hne).trans (if_pos rfl)

end

theorem map_toNat_stringBytes_putsBytes (s : State) (a : Word) (n : Nat) :
    (stringBytes putsBytes s a n).map BitVec.toNat = (wordsAt s a n).map (· % 256) := by
  simp only [stringBytes_putsBytes, wordsAt, List.map_map, Function.comp_def, toNat_lowByte]

theorem map_toNat_stringBytes_putspBytes_eq_wordsAt (s : State) (a : Word) (n : Nat) :
    (stringBytes putspBytes s a n).map BitVec.toNat = (wordsAt s a n).flatMap packedBytes := by
  rw [map_toNat_stringBytes_putspBytes, wordsAt, List.flatMap_map]

/-- The ignored bits of a TRAP word are laid over the word that has them zero (R61, R64). -/
theorem trapWord_eq (ign : BitVec 4) (vect : BitVec 8) :
    put 0xF#4 12 ||| put ign 8 ||| put vect 0 = (put 0xF#4 12 ||| put vect 0) ||| put ign 8 := by
  rw [BitVec.or_assoc, BitVec.or_comm (put ign 8), BitVec.or_assoc]

theorem encode_puts (ign : BitVec 4) : encode (.puts ign) = 0xF022#16 ||| (ign.setWidth 16 <<< 8) :=
  trapWord_eq ign 0x22#8

theorem encode_putsp (ign : BitVec 4) : encode (.putsp ign) = 0xF024#16 ||| (ign.setWidth 16 <<< 8) :=
  trapWord_eq ign 0x24#8

/-- A walk that does not end at a zero word leaves the bytes it has written and its fault (R105, R107). -/
theorem writeString_of_fault {s : State} {f : Word → List Byte} {w : Word} {bs : List Byte} {stop : StringEnd}
    {info : FaultInfo} (hscan : scanString f s.params.kbsrAddr s.mem 65536 (s.reg 0) = (bs, stop))
    (hfault : stringFault s.params.kbsrAddr w stop = some info) :
    s.trapEntry.writeString f w = (s.trapEntry.outBytes bs).raiseFault info := by
  simp only [State.writeString, trapEntry_params, trapEntry_mem, trapEntry_reg0, hscan, hfault]

/-- What PUTS and PUTSP do when the walk over the words at R0 has gone over `n` of them and stops at no zero word. -/
theorem puts_and_putsp_fault {s : State} {n : Nat} {stop : StringEnd} {cause : FaultCause} {addr : Word}
    (ign : BitVec 4)
    (hscan : ∀ f, scanString f s.params.kbsrAddr s.mem 65536 (s.reg 0) = (stringBytes f s (s.reg 0) n, stop))
    (hfault : ∀ w, stringFault s.params.kbsrAddr w stop = some ⟨cause, w, addr⟩) :
    (∃ t, exec (.puts ign) s = .next t ∧ BytesWritten ((wordsAt s (s.reg 0) n).map (· % 256)) s t ∧
      t.run = .faulted ⟨cause, 0xF022#16 ||| (ign.setWidth 16 <<< 8), addr⟩) ∧
    (∃ t, exec (.putsp ign) s = .next t ∧ BytesWritten ((wordsAt s (s.reg 0) n).flatMap packedBytes) s t ∧
      t.run = .faulted ⟨cause, 0xF024#16 ||| (ign.setWidth 16 <<< 8), addr⟩) := by
  rw [← encode_puts, ← encode_putsp]
  exact ⟨⟨_, congrArg Host.Outcome.next (writeString_of_fault (hscan _) (hfault _)),
      ⟨_, trapEntry_outBytes_output s _, map_toNat_stringBytes_putsBytes s _ n⟩, rfl⟩,
    ⟨_, congrArg Host.Outcome.next (writeString_of_fault (hscan _) (hfault _)),
      ⟨_, trapEntry_outBytes_output s _, map_toNat_stringBytes_putspBytes_eq_wordsAt s _ n⟩, rfl⟩⟩

/-- Settles O42: the walk stops before the word at KBSR_ADDR, and after the one at 0xFFFF. -/
theorem stringFaultsAreRaised : Obligations.StringFaultsAreRaised := fun ign _ _ htop hwalk =>
  ⟨fun hdev => puts_and_putsp_fault ign (fun f => scanString_to_device hwalk f htop hdev) fun _ => rfl,
    fun hlast hdev hne => puts_and_putsp_fault ign (fun f => scanString_to_top hwalk f hlast hdev hne) fun _ => rfl⟩

end Sys2Proof.Machine

/-! ### The fetch from KBSR_ADDR, and the table of the run state -/

namespace Sys2Proof.Machine

section
variable {s : State} {p : InputPort} (hrun : s.run = .running) (hpc : s.pc = s.params.kbsrAddr)
include hrun hpc

/-- The word that a poll with a byte leaves at KBSR_ADDR has the reserved opcode 1000 (R109). -/
theorem step_at_kbsr_of_byte {b : Byte} (hwf : s.params.wf) (h : s.input.poll = (some b, p)) :
    step s = .next ((s.poll.setPc (s.pc + 1#16)).raiseFault ⟨.undefinedOpcode, 0x8000#16, s.params.kbsrAddr⟩) := by
  obtain ⟨hword, -, -⟩ := poll_of_byte hwf h
  have hdecode : decode kbsrReady = .reserved1000 0 := by decide
  have hencode : encode (.reserved1000 0) = 0x8000#16 := by decide
  rw [step_of_running_at_kbsr hrun hpc, hpc, hword, hdecode, exec_of_reserved rfl, hencode, State.undefinedOpcode,
    setPc_pc, BitVec.add_sub_cancel]

/-- The word that a poll without a byte leaves at KBSR_ADDR is the no-op 0x0000 (R109). -/
theorem step_at_kbsr_of_no_byte (h : s.input.poll = (none, p)) : step s = .next (s.poll.setPc (s.pc + 1#16)) := by
  obtain ⟨hword, -, -⟩ := poll_of_no_byte h
  have hdecode : decode 0x0000#16 = .br 0b000#3 0 := by decide
  rw [step_of_running_at_kbsr hrun hpc, hpc, hword, hdecode, exec_br_not_taken 0 (branchTaken_none _)]

end

/-- Settles O48. -/
theorem fetchFromStatusPolls : Obligations.FetchFromStatusPolls := by
  intro s hwf hrun hpc
  constructor
  · intro b p h
    obtain ⟨-, -, hinput⟩ := poll_of_byte hwf h
    exact ⟨_, step_at_kbsr_of_byte hrun hpc hwf h, hinput, rfl⟩
  · intro p h
    obtain ⟨-, hmem, hinput⟩ := poll_of_no_byte h
    exact ⟨_, step_at_kbsr_of_no_byte hrun hpc h, hinput, (poll_run s).trans hrun, rfl, fun r _ => poll_reg s r,
      poll_cond s, hmem⟩

theorem isReserved_of_trapVector {i : Instr} {v : BitVec 8} (h : trapVector i = some v) : isReserved i = false := by
  cases i with
  | reserved1000 | res => cases h
  | _ => rfl

/-- The table of R104, for the instruction that a running core executes. -/
theorem RunEffect.table {i : Instr} {s t : State} (h : RunEffect i s t) (hrunning : s.run = .running) :
    (t.run = .halted ↔ trapVector i = some 0x25#8) ∧
    (isReserved i = true ↔ t.run = .faulted ⟨.undefinedOpcode, encode i, s.pc - 1#16⟩) ∧
    (∀ info, t.run = .faulted info → isReserved i = false →
      (trapVector i = some 0x22#8 ∨ trapVector i = some 0x24#8) ∧
      (info.cause = .stringOverrun ∨ info.cause = .stringThroughDevice) ∧ info.word = encode i) := by
  cases h with
  | kept hrun hreserved hhalt => simp [hrun, hrunning, hreserved, hhalt]
  | halted hrun hhalt => simp [hrun, hhalt, isReserved_of_trapVector hhalt]
  | undefined hrun hreserved =>
    have hhalt : trapVector i ≠ some 0x25#8 := fun h => by simp [isReserved_of_trapVector h] at hreserved
    simp [hrun, hreserved, hhalt]
  | string info hrun hword hcause hputs =>
    have hreserved : isReserved i = false := hputs.elim isReserved_of_trapVector isReserved_of_trapVector
    have hhalt : trapVector i ≠ some 0x25#8 := fun h => by simp [h] at hputs
    have hundefined : info ≠ ⟨.undefinedOpcode, encode i, s.pc - 1#16⟩ := by rintro rfl; simp at hcause
    refine ⟨by simp [hrun, hhalt], by simp [hrun, hreserved, hundefined], fun info' hinfo _ => ?_⟩
    obtain rfl := RunState.faulted.inj (hrun.symm.trans hinfo)
    exact ⟨hputs, hcause, hword⟩

/-- Settles O53: the fetch keeps the run state, and a decoded instruction has the word it was decoded from. -/
theorem runStateFollowsItsTable : Obligations.RunStateFollowsItsTable := by
  intro s t hrun ht
  have hstep : step s = exec (decode s.fetch.1) s.fetch.2 := by simp only [step, hrun]
  have hfetched : s.fetch.2.run = .running := (touch_run s s.pc).trans hrun
  have hpc : s.fetch.2.pc - 1#16 = s.pc := BitVec.add_sub_cancel s.pc 1#16
  have htable := (exec_runEffect _ _ t (hstep.symm.trans ht)).table hfetched
  rwa [(decode_row s.fetch.1).encode_eq, hpc] at htable

end Sys2Proof.Machine

/-! ### Construction, and the loading of one image after the other -/

namespace Sys2Proof.Machine

theorem resetWith_reg (p : Params) (r : Reg) : (State.resetWith p).reg r = 0x0000#16 := by
  rw [State.reg, State.resetWith, Fin.getElem_fin, Vector.getElem_replicate]

/-- Settles O8. -/
theorem resetLeavesTheInitialState : Obligations.ResetLeavesTheInitialState :=
  ⟨fun p => ⟨rfl, rfl, resetWith_reg p, fun _ => rfl, rfl, rfl, rfl, rfl⟩, rfl⟩

theorem loadWords_wf {s : State} (origin : Word) (ws : List Word) (h : s.mem.wf) : (s.loadWords origin ws).mem.wf := by
  induction ws generalizing s origin with
  | nil => exact h
  | cons w rest ih =>
    unfold State.loadWords
    split
    · exact memWrite_wf origin w h
    · exact ih (origin + 1#16) (memWrite_wf origin w h)

theorem loadImage_contents (s : State) (b0 b1 : Byte) (rest : List Byte) :
    s.loadImage (.contents (b0 :: b1 :: rest)) = .ready (s.loadWords (wordOfBytes b0 b1) (wordsOfBytes rest)) := rfl

/-- The first image loads and the others load over what it left. -/
theorem loadImages_cons_ready_iff {s t : State} {f : ImageFile} {rest : List ImageFile} :
    s.loadImages (f :: rest) = .ready t ↔ ∃ u, s.loadImage f = .ready u ∧ u.loadImages rest = .ready t := by
  rw [State.loadImages]
  cases s.loadImage f <;> simp

theorem loadImages_wf {s t : State} {images : List ImageFile} (hs : s.mem.wf) (h : s.loadImages images = .ready t) :
    t.mem.wf := by
  induction images generalizing s with
  | nil => cases h; exact hs
  | cons f rest ih =>
    obtain ⟨u, hu, ht⟩ := loadImages_cons_ready_iff.mp h
    obtain ⟨b0, b1, bytes, rfl⟩ := contents_of_loadImage_ready hu
    cases hu
    exact ih (loadWords_wf _ _ hs) ht

/-- Images that each have an origin all load. -/
theorem loadImages_ready_of_contents {images : List ImageFile}
    (h : ∀ f ∈ images, ∃ b0 b1 rest, f = .contents (b0 :: b1 :: rest)) (s : State) :
    ∃ t, s.loadImages images = .ready t := by
  induction images generalizing s with
  | nil => exact ⟨s, rfl⟩
  | cons f rest ih =>
    obtain ⟨⟨b0, b1, bytes, rfl⟩, hrest⟩ := List.forall_mem_cons.mp h
    obtain ⟨t, ht⟩ := ih hrest (s.loadWords (wordOfBytes b0 b1) (wordsOfBytes bytes))
    exact ⟨t, loadImages_cons_ready_iff.mpr ⟨_, loadImage_contents s b0 b1 bytes, ht⟩⟩

/-- A further image loads over what the earlier ones left (R56). -/
theorem loadImages_append_singleton {s t u : State} {images : List ImageFile} {f : ImageFile}
    (h : s.loadImages images = .ready t) (hf : t.loadImage f = .ready u) :
    s.loadImages (images ++ [f]) = .ready u := by
  induction images generalizing s with
  | nil => cases h; exact loadImages_cons_ready_iff.mpr ⟨u, hf, rfl⟩
  | cons g rest ih =>
    obtain ⟨v, hv, ht⟩ := loadImages_cons_ready_iff.mp h
    exact loadImages_cons_ready_iff.mpr ⟨v, hv, ih ht⟩

/-- The address of an image's word `k`, from the two bytes of its origin. -/
theorem ofNat_origin_add (b0 b1 : Byte) (k : Nat) :
    BitVec.ofNat 16 (b0.toNat * 256 + b1.toNat + k) = wordOfBytes b0 b1 + BitVec.ofNat 16 k := by
  rw [← toNat_wordOfBytes, BitVec.ofNat_add, BitVec.ofNat_toNat, BitVec.setWidth_eq]

/-- Settles O11: the constructed memory lists no word, so it is canonical, and each image loads over what the earlier
ones left. -/
theorem bootWritesOnlyMemory : Obligations.BootWritesOnlyMemory := by
  intro p input images
  refine ⟨rfl, fun h => loadImages_ready_of_contents h _, fun s hs => ⟨⟨boot_ready hs, loadImages_wf nil_wf hs⟩, ?_⟩⟩
  intro b0 b1 rest
  refine ⟨_, loadImages_append_singleton hs (loadImage_contents s b0 b1 rest), fun k hi lo hhi hlo hk => ?_,
    fun a ha => ?_⟩
  · rw [← toNat_wordOfBytes] at hk
    rw [ofNat_origin_add, loadWords_rawRead_word (getElem?_wordsOfBytes hhi hlo) hk, toNat_wordOfBytes]
  · rw [← toNat_wordOfBytes, ← length_wordsOfBytes] at ha
    exact loadWords_rawRead_outside ha

end Sys2Proof.Machine
